-- ==== Sys2Proof/Word.lean ====
section
/-! DEFINITION. The word types of B45CORE whose widths the spec fixes (`00_scope.md` R7, R8). The types whose width is the
parameter `LEN_W` stand in Config.lean. -/

namespace Sys2Proof

/-- A byte or a character code: `BYTE_W = CHAR_W = 8` bits (R7, R8). -/
abbrev Byte := BitVec 8

/-- One element of `DBUF`: `DIGIT_W = 6` bits (R8, R36). -/
abbrev DigitWord := BitVec 6

/-- A base-45 digit, the ordinal index 0 to 44 of an alphabet character (R14). R104 lets the operand of `charAt`
be typed so, which makes the indices of U5 unrepresentable. -/
abbrev Digit := Fin 45

/-- A buffer of `w`-bit elements: the list of (index, element) of the elements that hold a value. An index that is
not listed holds no value (R40). `Buffer 8` is a list of `Host.Cell`. -/
abbrev Buffer (w : Nat) := List (Nat × BitVec w)

end Sys2Proof
end

