-- ==== Sys2Proof/Config.lean ====
section
/-! DEFINITION. What is fixed for the life of one block and is no state (R21): the parameter `LEN_W`, the widths that
follow it, and the free values of the unspecified port reads. Another `LEN_W` is another value of `Config.lenW`, and of
nothing else. The two parameters that the spec decides and asks to be named, `Config.narrow` and `Config.errPosBase`,
stand with R7 and the capacities in Machine/Params.lean. -/

namespace Sys2Proof

/-- `LEN_W`, R8: OPEN, default 16 (U9: a parameter). DESIGN CHOICE (log 1): the default. -/
abbrev Config.lenW : Nat := 16

/-- `OLEN_W = LEN_W + 1`, R8. -/
abbrev Config.olenW : Nat := Config.lenW + 1

/-- A register of `LEN_W` bits: `IN_LEN`, `ERR_POS`, `IDX` (R20). -/
abbrev LenWord := BitVec Config.lenW

/-- A register of `OLEN_W` bits: `OUT_LEN`, `ODX` (R8, R20); also the width of the register port, since `REG` holds
registers of "up to `OLEN_W` bits" (R50). -/
abbrev OutWord := BitVec Config.olenW

/-- FREE VALUE (log 4): the value on the register port at the `n`-th unspecified read of a register (R195, R197, R240,
U6: "any value, possibly different on each read"). -/
opaque Config.freeRegister : Nat → OutWord

/-- FREE VALUE (log 4): the value on the OBUF port at the `n`-th unspecified read of an element (R58, R198, R240,
U6). -/
opaque Config.freeElement : Nat → Byte

end Sys2Proof
end

