-- ==== Sys2Proof/Machine/Params.lean ====
section
/-! DEFINITION. The parameters that the spec fixes: R7, the capacities of R8, and the two decided ones that U1 and U10 ask
to be carried by name. -/

namespace Sys2Proof.Config

/-- `BASE` (R7). -/
abbrev base : Nat := 45

/-- `BASE2`, the weight of the third digit (R7). -/
abbrev base2 : Nat := 2025

/-- `CAP_IN = 2^LEN_W - 1` elements (R8). -/
abbrev capIn : Nat := 2 ^ lenW - 1

/-- `CAP_OUT = 2^OLEN_W` elements (R8). -/
abbrev capOut : Nat := 2 ^ olenW

/-- `RANGE_POLICY = truncate` (R8): the one narrowing to a byte, applied at the three store points `high`, `low` and
tail (R130, R131, U1). Decided by D10 of the spec (log 6). -/
def narrow (v : Nat) : Byte := BitVec.ofNat 8 v

/-- `ERRPOS_BASE` (R8): the position reported with `InvalidCharacter` counts from 0. Decided by D9 of the spec
(log 7). -/
def errPosBase : LenWord := 0

end Sys2Proof.Config
end

