-- ==== Sys2Proof/Machine/Arith.lean ====
section
/-! DEFINITION. The base-45 arithmetic unit (`41_arithmetic.md`, R120 to R134): pure functions on naturals, exact but for
the narrowing of R130 and R131. -/

namespace Sys2Proof.Machine

open Sys2Proof.Config

/-- `PACK16` (R121): the byte at the lower index is the more significant (R53). -/
def pack16 (b0 b1 : Byte) : Nat := b0.toNat * 256 + b1.toNat

/-- The remainder of a division by 45, as a digit (R122: `0 <= r <= 44`). -/
def digitOf (n : Nat) : Digit := Fin.ofNat 45 n

/-- `DIVMOD45` (R122): quotient and remainder. -/
def divmod45 (n : Nat) : Nat × Digit := (n / base, digitOf n)

/-- `DIGITS3` (R124): two divisions, least significant digit first. The third digit is the second quotient, `% 45` as in
B45's text; for a 16-bit value that `% 45` changes nothing (R123). -/
def digits3 (value : Nat) : Digit × Digit × Digit :=
  let (q, d0) := divmod45 value
  let (d2, d1) := divmod45 q
  (d0, d1, digitOf d2)

/-- `DIGITS2`, the tail rule in B45's two cases (R126). -/
def digits2 (b : Byte) : Digit × Digit :=
  (digitOf b.toNat, if b.toNat < base then 0 else digitOf (b.toNat / base))

/-- `MAC3` (R127). -/
def mac3 (d0 d1 d2 : DigitWord) : Nat := d0.toNat + base * d1.toNat + base2 * d2.toNat

/-- `MAC2` (R128). -/
def mac2 (d0 d1 : DigitWord) : Nat := d0.toNat + base * d1.toNat

/-- `SPLIT16` (R129, R130): the two stored bytes, `high = val / 256` first, each through `narrow` (U1). -/
def split16 (val : Nat) : Byte × Byte := (narrow (val / 256), narrow (val % 256))

/-- `TRUNC8` (R131). -/
def trunc8 (t : Nat) : Byte := narrow t

/-- The length law of encode (R142, R146). -/
def encodeLen (n : Nat) : Nat := 3 * (n / 2) + 2 * (n % 2)

/-- The length law of decode (R165, R171). -/
def decodeLen (n : Nat) : Nat := 2 * (n / 3) + if n % 3 = 2 then 1 else 0

end Sys2Proof.Machine
end

