-- ==== Sys2Proof/Syntax.lean ====
section
/-! DEFINITION. The instructions of spec/opcode_table.json, one constructor a row; the sequencer's phases; the words the
decoder reads. -/

namespace Sys2Proof

/-- The 13 rows of the opcode table: four commands of format `CMD8` (R80, R82) and nine sequencer steps of format
`PHASE3` (R87, R88). No row has an operand field (R81). -/
inductive Instr where
  /-- `NOP`, R190. -/
  | nop
  /-- `ENCODE`, R142. -/
  | encode
  /-- `DECODE`, R163 with `IGNR = 0`. -/
  | decode
  /-- `DECODE.IGN`, R163 with `IGNR = 1`. -/
  | decodeIgn
  /-- `ENC_PAIR`, R143. -/
  | encPair
  /-- `ENC_TAIL`, R144. -/
  | encTail
  /-- `ENC_FIN`, R145. -/
  | encFin
  /-- `DEC_CHECK`, R165. -/
  | decCheck
  /-- `DEC_XLAT`, R166 and R167. -/
  | decXlat
  /-- `DEC_TRIPLE`, R168. -/
  | decTriple
  /-- `DEC_PAIR`, R169. -/
  | decPair
  /-- `DEC_DROP`, R170. -/
  | decDrop
  /-- `DEC_FIN`, R173. -/
  | decFin
  deriving DecidableEq, Repr

/-- The five phases of R87; the unused codes 5, 6, 7 are unrepresentable, as U8 asks. -/
inductive Phase where
  | idle
  | encRun
  | decChk
  | decXl
  | decEmit
  deriving DecidableEq, Repr

/-- What the decoder reads: a word of one of the table's two formats. -/
inductive CodeWord where
  /-- `CMD8`: the value `v` written to register 0 (R80). -/
  | cmd8 (v : Nat)
  /-- `PHASE3`: the phase code `code` and `rem = IN_LEN - IDX`, which together select the step (R88). -/
  | phase3 (code rem : Nat)
  deriving DecidableEq, Repr

/-- Why the decoder refuses a word. -/
inductive DecodeError where
  /-- A `CMD8` word is exactly 8 bits; "there are no longer or shorter commands" (R80). -/
  | notEightBits (v : Nat)
  /-- One of bits 7:2 is set (R83). -/
  | reservedCommand (v : Nat)
  /-- Phase code 0, `IDLE`: "the sequencer has no step" (R87). -/
  | idlePhase
  /-- Phase codes 5, 6, 7: unused (R87). -/
  | unusedPhase (code : Nat)
  /-- A phase code is 3 bits (R87). -/
  | notThreeBits (code : Nat)
  deriving DecidableEq, Repr

end Sys2Proof
end

