-- ==== Sys2Proof/WellFormed.lean ====
section
/-! DEFINITION. Well-formedness. An instruction has no operand (R81), so every instruction is well formed; the checks are
on the words. -/

namespace Sys2Proof

/-- Every instruction is well formed: "each of the four opcodes is legal whatever `IN_LEN` and `IBUF` hold" (R84), and a
step has no field. -/
def Instr.wellFormed : Instr → Bool
  | .nop | .encode | .decode | .decodeIgn => true
  | .encPair | .encTail | .encFin => true
  | .decCheck | .decXlat | .decTriple | .decPair | .decDrop | .decFin => true

/-- A word that spells an instruction: a `CMD8` word is 8 bits (R80) with `RSV`, bits 7:2, zero (R83); a `PHASE3` word
is 3 bits and names a phase that has a step (R87). -/
def CodeWord.wellFormed : CodeWord → Bool
  | .cmd8 v => decide (v < 2 ^ 8) && decide (v / 2 ^ 2 = 0)
  | .phase3 code _ => decide (code < 2 ^ 3) && decide (code ≠ 0) && decide (code ≤ 4)

end Sys2Proof
end

