-- ==== Sys2Proof/Decode.lean ====
section
/-! DEFINITION. Decoding, total on any word and refusing by name, and the encoder (R80 to R83, R87, R88). -/

namespace Sys2Proof

/-- `CMD[1]`, the field `DEC` (R80). -/
def cmdDec (v : Nat) : Bool := v / 2 % 2 == 1

/-- `CMD[0]`, the field `F` (R80). -/
def cmdF (v : Nat) : Bool := v % 2 == 1

/-- "A decoder reads `CMD[7:2]` first; if it is not 0 the word is reserved; otherwise `CMD[1:0]` selects one of the four
rows" (R82). A value of more than 8 bits is no command word (R80). -/
def decodeCmd8 (v : Nat) : Except DecodeError Instr :=
  if 256 ≤ v then .error (.notEightBits v)
  else if v / 4 ≠ 0 then .error (.reservedCommand v)
  else
    match cmdDec v, cmdF v with
    | false, false => .ok .nop
    | false, true => .ok .encode
    | true, false => .ok .decode
    | true, true => .ok .decodeIgn

/-- The codes of R87. -/
def phaseCode : Phase → Nat
  | .idle => 0
  | .encRun => 1
  | .decChk => 2
  | .decXl => 3
  | .decEmit => 4

/-- The phase of a code; none for the unused codes and for a value of more than 3 bits (R87). -/
def phaseOfCode : Nat → Option Phase
  | 0 => some .idle
  | 1 => some .encRun
  | 2 => some .decChk
  | 3 => some .decXl
  | 4 => some .decEmit
  | _ => none

/-- The step that `ENC_RUN` selects by `rem` (R88). -/
def encStep : Nat → Instr
  | 0 => .encFin
  | 1 => .encTail
  | _ => .encPair

/-- The step that `DEC_EMIT` selects by `rem` (R88). -/
def emitStep : Nat → Instr
  | 0 => .decFin
  | 1 => .decDrop
  | 2 => .decPair
  | _ => .decTriple

/-- The step table of R88. -/
def decodePhase3 (code rem : Nat) : Except DecodeError Instr :=
  if 8 ≤ code then .error (.notThreeBits code)
  else
    match phaseOfCode code with
    | none => .error (.unusedPhase code)
    | some .idle => .error .idlePhase
    | some .encRun => .ok (encStep rem)
    | some .decChk => .ok .decCheck
    | some .decXl => .ok .decXlat
    | some .decEmit => .ok (emitStep rem)

/-- The decoder. -/
def decode : CodeWord → Except DecodeError Instr
  | .cmd8 v => decodeCmd8 v
  | .phase3 code rem => decodePhase3 code rem

/-- The encoder, from R82 and R88: a command's word, or a step's phase code with the least `rem` that selects it
(`DEC_CHECK` takes any `rem`, written 0, and `DEC_XLAT` any `rem` of at least 1, R88). -/
def encode : Instr → CodeWord
  | .nop => .cmd8 0x00
  | .encode => .cmd8 0x01
  | .decode => .cmd8 0x02
  | .decodeIgn => .cmd8 0x03
  | .encPair => .phase3 1 2
  | .encTail => .phase3 1 1
  | .encFin => .phase3 1 0
  | .decCheck => .phase3 2 0
  | .decXlat => .phase3 3 1
  | .decTriple => .phase3 4 3
  | .decPair => .phase3 4 2
  | .decDrop => .phase3 4 1
  | .decFin => .phase3 4 0

/-- How the host reads a word of the opcode table, of `nbits` bits: a 3-bit word is a `PHASE3` code; an 8-bit word is a
`CMD8` word, or, where no `CMD8` row has it, the `PHASE3` code in its low 3 bits (the table's `PHASE3` rows have 3 bits,
one whole byte). The bits above are zero, so `rem` is 0. DESIGN CHOICE (log 9): rows that share a word cannot be told
apart by it. Nothing of the machine's own reading of a command goes through this. -/
def tableCodeWord (nbits w : Nat) : Option CodeWord :=
  if nbits = 3 then some (.phase3 w 0)
  else if nbits = 8 then
    match decodeCmd8 w with
    | .ok _ => some (.cmd8 w)
    | .error _ => some (.phase3 w 0)
  else none

/-- The instruction that the decoder reads from a word of the opcode table. -/
def decodeTableWord (nbits w : Nat) : Option Instr :=
  match tableCodeWord nbits w with
  | none => none
  | some c =>
    match decode c with
    | .ok i => some i
    | .error _ => none

end Sys2Proof
end

