-- ==== Sys2Proof/Machine/State.lean ====
section
/-! DEFINITION. The state of one B45CORE instance (R20), its faults and refusals, and the state after reset (R40). -/

namespace Sys2Proof.Machine

/-- The values of `STATUS.ERR` that this hardware produces (R27); code 3 is "never produced" (R208) and unrepresentable,
as U8 asks. -/
inductive ErrKind where
  | none
  | invalidLength
  | invalidCharacter
  deriving DecidableEq, Repr

/-- The fields of `STATUS` (R25). Bits 7:4 have no storage, they "read as 0". -/
structure Status where
  busy : Bool
  done : Bool
  err : ErrKind
  deriving DecidableEq, Repr

/-- The three buffers (R34, R35, R36). -/
inductive BufferName where
  | ibuf
  | obuf
  | dbuf
  deriving DecidableEq, Repr

/-- The host's moves: the port operations and the reset input (R64, R94), the notation's moves that depend on what is
read (R95), and `letRun`, by which the host gives its turn to the sequencer (log 2). -/
inductive HostMove where
  /-- `RD r`: register port read (R195). -/
  | rd (r : Nat)
  /-- `WR r, v`: register port write (R196); `r = 0` is a command. -/
  | wr (r v : Nat)
  /-- `WRB i, v`: IBUF port write (R198). -/
  | wrb (i : Nat) (v : Byte)
  /-- `RDB i`: OBUF port read (R198). -/
  | rdb (i : Nat)
  /-- `RESET`: the reset input (R230). -/
  | reset
  /-- The host makes no move: the sequencer has this turn (R246, log 2). -/
  | letRun
  /-- `WAIT`: read `STATUS` until `DONE` is set (R95). -/
  | wait
  /-- `READOUT`: read `OUT_LEN`, giving `m`, then `OBUF[0 .. m-1]`, with no turn of the sequencer between (R95, log 2). -/
  | readout
  /-- `COPYBACK`: `READOUT`, then `LOAD` of the values read, with no turn of the sequencer between (R95, log 2). -/
  | copyback
  /-- The second half of `COPYBACK`: `LOAD` of the last `m` values read (R95). -/
  | reload (m : Nat)
  deriving DecidableEq, Repr

/-- A value that a port has returned to the host. -/
inductive Reply where
  /-- The register port returned `v` for register `r`. -/
  | register (r : Nat) (v : OutWord)
  /-- The OBUF port returned `v` for element `i`. -/
  | element (i : Nat) (v : Byte)
  deriving DecidableEq, Repr

/-- The machine stops with a fault. -/
inductive Fault where
  /-- A step or a host read reads element `i` of a buffer, which holds no value (U3: "fault (naming the buffer and index)
  and not pick zero"; R151, R179, R236). Raised by ENC_PAIR, ENC_TAIL, DEC_XLAT, DEC_TRIPLE, DEC_PAIR and `RDB`. SAFE:
  the model stops where the hardware goes on with an unspecified result. -/
  | noValue (b : BufferName) (i : Nat)
  deriving DecidableEq, Repr

/-- The model gives no meaning. -/
inductive Refusal where
  /-- Raised by an arm of `exec` whose instruction has no meaning yet; no arm does. SAFE. -/
  | notModelled (mnemonic : String)
  /-- A write to register 0, while idle, of a value of more than 8 bits: no command has such a word (R80) and no rule says
  what the port makes of it. Raised by `hostMove` for `WR 0, v`. SAFE (log 8). -/
  | notACommandWord (v : Nat)
  deriving DecidableEq, Repr

/-- The complete state (R20), and after it the model's own three fields. `CMD` "holds nothing" (R24), the tables are
constants (R21), the working registers hold nothing between steps (R22). -/
structure State where
  /-- `STATUS` (R25). -/
  status : Status
  /-- `IN_LEN` (R29). -/
  inLen : LenWord
  /-- `OUT_LEN` (R30). -/
  outLen : OutWord
  /-- `ERR_POS` (R31). -/
  errPos : LenWord
  /-- `OPR` (R32): false = encode, true = decode. -/
  opr : Bool
  /-- `IGNR` (R32). -/
  ignr : Bool
  /-- `PHASE` (R33, R87). -/
  phase : Phase
  /-- `IDX` (R23). -/
  idx : LenWord
  /-- `ODX` (R23). -/
  odx : OutWord
  /-- `IBUF` (R34). -/
  ibuf : List Host.Cell
  /-- `OBUF` (R35). -/
  obuf : List Host.Cell
  /-- `DBUF` (R36). -/
  dbuf : Buffer 6
  /-- The model's own (log 2): the host's moves still to come. -/
  pending : List HostMove
  /-- The model's own (log 3): what the ports have returned, the latest first. -/
  replies : List Reply
  /-- The model's own (log 4): how many unspecified reads have been answered. -/
  draws : Nat
  deriving DecidableEq, Repr

/-- The state after reset (R40, R230). Every register's value is the spec's; `pending`, `replies`, `draws` are the
model's own (DESIGN CHOICE, log 2, 3, 4). -/
def State.reset : State where
  status := { busy := false, done := false, err := .none }
  inLen := 0
  outLen := 0
  errPos := 0
  opr := false
  ignr := false
  phase := .idle
  idx := 0
  odx := 0
  ibuf := []
  obuf := []
  dbuf := []
  pending := []
  replies := []
  draws := 0

end Sys2Proof.Machine
end

