-- ==== Sys2Proof/Machine/Flags.lean ====
section
/-! DEFINITION. `STATUS`: what each of the three rules that write it leaves there, and the word the host reads (R25,
R27). No arithmetic sets a flag (R25). -/

namespace Sys2Proof.Machine

/-- The codes of `STATUS.ERR` (R27). -/
def errCode : ErrKind → BitVec 2
  | .none => 0
  | .invalidLength => 1
  | .invalidCharacter => 2

/-- The word a read of register 1 returns: `{0b0000, ERR[1:0], DONE, BUSY}` (R195). -/
def statusWord (f : Status) : Byte :=
  0#4 ++ errCode f.err ++ BitVec.ofBool f.done ++ BitVec.ofBool f.busy

/-- At the acceptance of a command: `BUSY <- 1`, `DONE <- 0`, `ERR <- 0` (R192). -/
def Status.accepted : Status := { busy := true, done := false, err := .none }

/-- At normal completion: `BUSY <- 0`, `DONE <- 1`; `ERR` keeps its value (R145, R173). -/
def Status.completed (f : Status) : Status := { f with busy := false, done := true }

/-- At error entry: `ERR <- code(E)`, `BUSY <- 0`, `DONE <- 1` (R212). -/
def Status.failed (e : ErrKind) : Status := { busy := false, done := true, err := e }

end Sys2Proof.Machine
end

