-- ==== Sys2Proof/Machine/Memory.lean ====
section
/-! DEFINITION. The buffers as memory (R50, R51, R60): one-element reads and writes over a list in one canonical form. An
index that is not listed holds no value (R40), so there is no value whose write would take an entry out. -/

namespace Sys2Proof.Machine

/-- The element at index `i`; none where it holds no value (R40, U3). -/
def Memory.read {w : Nat} (m : Buffer w) (i : Nat) : Option (BitVec w) :=
  match m with
  | [] => none
  | (j, u) :: rest => if i = j then some u else Memory.read rest i

/-- `MemWrite(space, i, 1, v)` (R12): the element at index `i` becomes `v`. -/
def Memory.write {w : Nat} (m : Buffer w) (i : Nat) (v : BitVec w) : Buffer w :=
  match m with
  | [] => [(i, v)]
  | (j, u) :: rest =>
    if i < j then (i, v) :: (j, u) :: rest
    else if i = j then (i, v) :: rest
    else (j, u) :: Memory.write rest i v

/-- The elements `0 .. n-1` become 0, every other is kept (R165: `DBUF[i] <- 0` for every `i` in `0 .. n-1`). -/
def Memory.zeroFill {w : Nat} (m : Buffer w) (n : Nat) : Buffer w :=
  (List.range n).map (fun i => (i, 0)) ++ m.filter (fun c => decide (n ≤ c.1))

/-- The indices rise strictly and lie in `lo ..< cap`. -/
def Memory.rising {w : Nat} (lo cap : Nat) (m : Buffer w) : Bool :=
  match m with
  | [] => true
  | (j, _) :: rest => decide (lo ≤ j) && decide (j < cap) && Memory.rising (j + 1) cap rest

/-- The canonical form of a buffer of `cap` elements: indices strictly rising, all below `cap`. -/
def Memory.wf {w : Nat} (cap : Nat) (m : Buffer w) : Bool := Memory.rising 0 cap m

end Sys2Proof.Machine
end

