-- ==== Sys2Proof/Machine/Operands.lean ====
section
/-! DEFINITION. The operands of the steps: elements of `IBUF` and `DBUF` at `IDX + k` (R59), read one element at a time
(R60). A read of an element that holds no value faults, naming the buffer and the index (U3). -/

namespace Sys2Proof.Machine

/-- One element of a buffer, or the fault of U3. -/
def element {w : Nat} (b : BufferName) (m : Buffer w) (i : Nat) : Except Fault (BitVec w) :=
  match Memory.read m i with
  | some v => .ok v
  | none => .error (.noValue b i)

/-- `IBUF[IDX + k]`; the address is computed in the width of `IDX` (R59: it cannot overflow). -/
def ibufAt (s : State) (k : LenWord) : Except Fault Byte := element .ibuf s.ibuf (s.idx + k).toNat

/-- `DBUF[IDX + k]`. -/
def dbufAt (s : State) (k : LenWord) : Except Fault DigitWord := element .dbuf s.dbuf (s.idx + k).toNat

/-- The operands of ENC_PAIR: `IBUF[IDX]`, `IBUF[IDX+1]` (R143). -/
def ibufPair (s : State) : Except Fault (Byte × Byte) :=
  match ibufAt s 0 with
  | .error f => .error f
  | .ok b0 =>
    match ibufAt s 1 with
    | .error f => .error f
    | .ok b1 => .ok (b0, b1)

/-- The operands of DEC_PAIR: `DBUF[IDX]`, `DBUF[IDX+1]` (R169). -/
def dbufPair (s : State) : Except Fault (DigitWord × DigitWord) :=
  match dbufAt s 0 with
  | .error f => .error f
  | .ok d0 =>
    match dbufAt s 1 with
    | .error f => .error f
    | .ok d1 => .ok (d0, d1)

/-- The operands of DEC_TRIPLE: `DBUF[IDX]`, `DBUF[IDX+1]`, `DBUF[IDX+2]` (R168). -/
def dbufTriple (s : State) : Except Fault (DigitWord × DigitWord × DigitWord) :=
  match dbufPair s with
  | .error f => .error f
  | .ok (d0, d1) =>
    match dbufAt s 2 with
    | .error f => .error f
    | .ok d2 => .ok (d0, d1, d2)

/-- Run `k` on operands that were read, or stop with the fault of the read. A step is atomic (R12), and the fault
carries no state; which element it names is log 11. -/
def withOperands {α : Type} (x : Except Fault α) (k : α → State) : Host.Outcome State Fault Refusal :=
  match x with
  | .ok a => .next (k a)
  | .error f => .fault f

/-- `rem = IN_LEN - IDX` (R88), a natural (R9). -/
def remaining (s : State) : Nat := s.inLen.toNat - s.idx.toNat

end Sys2Proof.Machine
end

