-- ==== Sys2Proof/Machine/Tables.lean ====
section
/-! DEFINITION. The two constant tables and their lookups (`40_tables.md`, R100 to R109). -/

namespace Sys2Proof.Machine

/-- `CHAR_ROM` (R37), the 45 codes of R102. PRESUMED by the spec itself ("from general knowledge", G1) but for `A` and
`B`. -/
def charRom : Vector Byte 45 :=
  #v[0x30, 0x31, 0x32, 0x33, 0x34, 0x35, 0x36, 0x37, 0x38, 0x39,
     0x41, 0x42, 0x43, 0x44, 0x45, 0x46, 0x47, 0x48, 0x49, 0x4A,
     0x4B, 0x4C, 0x4D, 0x4E, 0x4F, 0x50, 0x51, 0x52, 0x53, 0x54,
     0x55, 0x56, 0x57, 0x58, 0x59, 0x5A,
     0x20, 0x24, 0x25, 0x2A, 0x2B, 0x2D, 0x2E, 0x2F, 0x3A]

/-- `CHARAT` (R103): defined for the indices 0 to 44 (R104). -/
def charAt (i : Digit) : Byte := charRom[i]

/-- An entry of `INDEX_ROM`: `valid`, 1 bit, and `idx`, 6 bits (R38). -/
structure IndexEntry where
  valid : Bool
  idx : DigitWord
  deriving DecidableEq, Repr

/-- The nine codes of R105 that stand alone, from the space on. -/
def symbolIndex : Nat → Option Nat
  | 0x20 => some 36
  | 0x24 => some 37
  | 0x25 => some 38
  | 0x2A => some 39
  | 0x2B => some 40
  | 0x2D => some 41
  | 0x2E => some 42
  | 0x2F => some 43
  | 0x3A => some 44
  | _ => none

/-- The ordinal index that R105 gives the code `n`, where it gives one. -/
def ordinalOf (n : Nat) : Option Nat :=
  if 0x30 ≤ n ∧ n ≤ 0x39 then some (n - 0x30)
  else if 0x41 ≤ n ∧ n ≤ 0x5A then some (n - 0x41 + 10)
  else symbolIndex n

/-- `INDEX_ROM` (R38), the contents of R105: `(0, 0)` for the 211 codes outside the alphabet. -/
def indexRom (c : Byte) : IndexEntry :=
  match ordinalOf c.toNat with
  | some i => { valid := true, idx := BitVec.ofNat 6 i }
  | none => { valid := false, idx := 0 }

/-- `INDEXOF` (R106). The lookup itself does not fail. -/
def indexOf (c : Byte) : IndexEntry := indexRom c

/-- The characters of the alphabet in the fixed order of R101: the digits, the letters, the nine symbols. -/
def alphabet : List Char :=
  ['0', '1', '2', '3', '4', '5', '6', '7', '8', '9'] ++
  ['A', 'B', 'C', 'D', 'E', 'F', 'G', 'H', 'I', 'J', 'K', 'L', 'M'] ++
  ['N', 'O', 'P', 'Q', 'R', 'S', 'T', 'U', 'V', 'W', 'X', 'Y', 'Z'] ++
  [' ', '$', '%', '*', '+', '-', '.', '/', ':']

/-- The code that `LOADS` gives a character (R95): the entry of R102 for a character of the alphabet, the ASCII code for
another; none for a character that has no ASCII code (log 10). -/
def charCode (c : Char) : Option Byte :=
  match alphabet.idxOf? c with
  | some i => some (charAt (Fin.ofNat 45 i))
  | none => if c.toNat < 128 then some (BitVec.ofNat 8 c.toNat) else none

/-- The codes of a text; none where a character has none. -/
def textCodes : List Char → Option (List Byte)
  | [] => some []
  | c :: cs =>
    match charCode c, textCodes cs with
    | some x, some xs => some (x :: xs)
    | _, _ => none

end Sys2Proof.Machine
end

