-- ==== Sys2Proof/Machine/Ops.lean ====
section
/-! DEFINITION. The named operations over registers and buffers that the meanings are made of; taking an error (R212) and
leaving it (R192, R215) among them. -/

namespace Sys2Proof.Machine

/-- Command acceptance, the effects common to every accepted command (R192). It is also the return from an error: "the
next accepted command" clears it (R215). -/
def accept (dec ign : Bool) (s : State) : State :=
  { s with
    opr := dec, ignr := ign, status := .accepted, errPos := 0, outLen := 0, idx := 0, odx := 0 }

/-- A command's own registers in the acceptance step: `OUT_LEN` and `PHASE` (R142, R163). -/
def enter (p : Phase) (len : OutWord) (s : State) : State := { s with phase := p, outLen := len }

/-- Normal completion: `BUSY <- 0`, `DONE <- 1`, `PHASE <- IDLE` (R145, R173). -/
def complete (s : State) : State := { s with status := s.status.completed, phase := .idle }

/-- Error entry, `raise E(pos)` (R212): the whole effect of the step that raises. -/
def raiseError (e : ErrKind) (pos : LenWord) (s : State) : State :=
  { s with status := .failed e, errPos := pos, outLen := 0, phase := .idle }

/-- `OBUF[ODX + k] <- v`; the address is computed in the width of `ODX` (R59: it cannot overflow). -/
def putObuf (k : OutWord) (v : Byte) (s : State) : State :=
  { s with obuf := Memory.write s.obuf (s.odx + k).toNat v }

/-- `DBUF[IDX] <- v` (R166). -/
def putDbuf (v : DigitWord) (s : State) : State :=
  { s with dbuf := Memory.write s.dbuf s.idx.toNat v }

/-- `DBUF[i] <- 0` for every `i` in `0 .. IN_LEN-1` (R165). -/
def clearDbuf (s : State) : State := { s with dbuf := Memory.zeroFill s.dbuf s.inLen.toNat }

/-- `IDX <- IDX + di`, `ODX <- ODX + dox`: the advances of R23. -/
def advance (di : LenWord) (dox : OutWord) (s : State) : State :=
  { s with idx := s.idx + di, odx := s.odx + dox }

/-- `IDX <- 0`, `ODX <- 0`, `PHASE <- DEC_XL`: the end of a DEC_CHECK that goes on (R165). -/
def beginTranslate (s : State) : State := { s with idx := 0, odx := 0, phase := .decXl }

/-- The end of a DEC_XLAT that goes on: after the last character `IDX <- 0`, `PHASE <- DEC_EMIT`, otherwise
`IDX <- IDX + 1` (R166, R167). -/
def nextCharacter (s : State) : State :=
  if s.idx + 1 = s.inLen then { s with idx := 0, phase := .decEmit }
  else { s with idx := s.idx + 1 }

/-- The position that `InvalidCharacter` reports: the index of the character, from `ERRPOS_BASE` (R167, R8). -/
def errorPosition (s : State) : LenWord := s.idx + Config.errPosBase

/-- Run a command's acceptance when `STATUS.BUSY = 0` (R191); while `BUSY = 1` the write is ignored (R193). -/
def whenIdle (f : State → State) (s : State) : State := if s.status.busy then s else f s

end Sys2Proof.Machine
end

