-- ==== Sys2Proof/Machine/Control.lean ====
section
/-! DEFINITION. `NOP` (`44_control.md`). -/

namespace Sys2Proof.Machine

/-- `NOP` (R190): "Effect: none. No state changes", whether `BUSY` is 0 or 1. -/
def execNop (s : State) : Host.Outcome State Fault Refusal := .next s

end Sys2Proof.Machine
end

