-- ==== Sys2Proof/Machine/DecodeFamily.lean ====
section
/-! DEFINITION. `DECODE`, `DECODE.IGN` and their steps DEC_CHECK, DEC_XLAT, DEC_TRIPLE, DEC_PAIR, DEC_DROP, DEC_FIN
(`43_decode.md`). -/

namespace Sys2Proof.Machine

/-- The acceptance of a decode with policy `ign` (R163, R192): `OUT_LEN` is 0 after it. -/
def startDecode (ign : Bool) (s : State) : State := enter .decChk 0 (accept true ign s)

/-- `DECODE` (R163, R191, R193). -/
def execDecode (s : State) : Host.Outcome State Fault Refusal := .next (whenIdle (startDecode false) s)

/-- `DECODE.IGN` (R163, R191, R193). -/
def execDecodeIgn (s : State) : Host.Outcome State Fault Refusal := .next (whenIdle (startDecode true) s)

/-- What DEC_CHECK does (R165): empty input completes; a length of 1 modulo 3 raises unless `IGNR`; otherwise the output
length is set, the digits are zeroed and translation begins. -/
def checkLength (s : State) : State :=
  let n := s.inLen.toNat
  if n = 0 then complete { s with outLen := 0 }
  else if n % 3 = 1 ∧ s.ignr = false then raiseError .invalidLength 0 s
  else beginTranslate (clearDbuf { s with outLen := BitVec.ofNat Config.olenW (decodeLen n) })

/-- DEC_CHECK (R165). -/
def execDecCheck (s : State) : Host.Outcome State Fault Refusal := .next (checkLength s)

/-- What DEC_XLAT does with its character: R166 where it is in the alphabet, R167 where it is not. -/
def translateCharacter (s : State) (c : Byte) : State :=
  let e := indexOf c
  if e.valid then nextCharacter (putDbuf e.idx s)
  else if s.ignr then nextCharacter s
  else raiseError .invalidCharacter (errorPosition s) s

/-- DEC_XLAT (R166, R167). -/
def execDecXlat (s : State) : Host.Outcome State Fault Refusal := withOperands (ibufAt s 0) (translateCharacter s)

/-- What DEC_TRIPLE does with its three digits (R168): the high byte first (R55). -/
def emitTriple (s : State) (d : DigitWord × DigitWord × DigitWord) : State :=
  let (high8, low) := split16 (mac3 d.1 d.2.1 d.2.2)
  advance 3 2 (putObuf 1 low (putObuf 0 high8 s))

/-- DEC_TRIPLE (R168). -/
def execDecTriple (s : State) : Host.Outcome State Fault Refusal := withOperands (dbufTriple s) (emitTriple s)

/-- What DEC_PAIR does with its two digits (R169). -/
def emitPair (s : State) (d : DigitWord × DigitWord) : State :=
  advance 2 1 (putObuf 0 (trunc8 (mac2 d.1 d.2)) s)

/-- DEC_PAIR (R169). -/
def execDecPair (s : State) : Host.Outcome State Fault Refusal := withOperands (dbufPair s) (emitPair s)

/-- DEC_DROP (R170): the digit is not read and no byte is emitted. -/
def execDecDrop (s : State) : Host.Outcome State Fault Refusal := .next (advance 1 0 s)

/-- DEC_FIN (R173). -/
def execDecFin (s : State) : Host.Outcome State Fault Refusal := .next (complete s)

end Sys2Proof.Machine
end

