-- ==== Sys2Proof/Machine/EncodeFamily.lean ====
section
/-! DEFINITION. `ENCODE` and its steps ENC_PAIR, ENC_TAIL, ENC_FIN (`42_encode.md`). -/

namespace Sys2Proof.Machine

/-- The acceptance of `ENCODE` (R142, R192). -/
def startEncode (s : State) : State :=
  enter .encRun (BitVec.ofNat Config.olenW (encodeLen s.inLen.toNat)) (accept false false s)

/-- `ENCODE` (R142, R191, R193). -/
def execEncode (s : State) : Host.Outcome State Fault Refusal := .next (whenIdle startEncode s)

/-- What ENC_PAIR does with its two bytes (R143). -/
def encodePair (s : State) (b : Byte × Byte) : State :=
  let (d0, d1, d2) := digits3 (pack16 b.1 b.2)
  advance 2 3 (putObuf 2 (charAt d2) (putObuf 1 (charAt d1) (putObuf 0 (charAt d0) s)))

/-- ENC_PAIR (R143). -/
def execEncPair (s : State) : Host.Outcome State Fault Refusal := withOperands (ibufPair s) (encodePair s)

/-- What ENC_TAIL does with its byte (R144). -/
def encodeTail (s : State) (b : Byte) : State :=
  let (d0, d1) := digits2 b
  advance 1 2 (putObuf 1 (charAt d1) (putObuf 0 (charAt d0) s))

/-- ENC_TAIL (R144). -/
def execEncTail (s : State) : Host.Outcome State Fault Refusal := withOperands (ibufAt s 0) (encodeTail s)

/-- ENC_FIN (R145). -/
def execEncFin (s : State) : Host.Outcome State Fault Refusal := .next (complete s)

end Sys2Proof.Machine
end

