-- ==== Sys2Proof/Machine/Dispatch.lean ====
section
/-! DEFINITION. One arm per instruction. -/

namespace Sys2Proof.Machine

def exec (i : Instr) (s : State) : Host.Outcome State Fault Refusal :=
  match i with
  | .nop => Sys2Proof.Machine.execNop s
  | .encode => Sys2Proof.Machine.execEncode s
  | .decode => Sys2Proof.Machine.execDecode s
  | .decodeIgn => Sys2Proof.Machine.execDecodeIgn s
  | .encPair => Sys2Proof.Machine.execEncPair s
  | .encTail => Sys2Proof.Machine.execEncTail s
  | .encFin => Sys2Proof.Machine.execEncFin s
  | .decCheck => Sys2Proof.Machine.execDecCheck s
  | .decXlat => Sys2Proof.Machine.execDecXlat s
  | .decTriple => Sys2Proof.Machine.execDecTriple s
  | .decPair => Sys2Proof.Machine.execDecPair s
  | .decDrop => Sys2Proof.Machine.execDecDrop s
  | .decFin => Sys2Proof.Machine.execDecFin s

end Sys2Proof.Machine
end

