-- ==== Sys2Proof/Machine/Ports.lean ====
section
/-! DEFINITION. The host's moves: the register port, the buffer ports, reset (`44_control.md` R195 to R198, `20_memory.md`
R58, R64, `70_reset_and_hazards.md` R230, R239, R240), and the notation of R94 and R95. -/

namespace Sys2Proof.Machine

/-- A port returns a value to the host. -/
def answer (x : Reply) (s : State) : State := { s with replies := x :: s.replies }

/-- A port returns an unspecified value: the next free value (log 4). A read has no side effect on the block (R62,
R240). -/
def answerFree (x : Nat → Reply) (s : State) : State :=
  { s with replies := x s.draws :: s.replies, draws := s.draws + 1 }

/-- The register a read returns, while idle (R195); none for the numbers that do not exist (R197). -/
def registerValue (s : State) : Nat → Option OutWord
  | 0 => some 0
  | 1 => some ((statusWord s.status).setWidth Config.olenW)
  | 2 => some (s.inLen.setWidth Config.olenW)
  | 3 => some s.outLen
  | 4 => some (s.errPos.setWidth Config.olenW)
  | _ => none

/-- The value a read of register `r` returns where the spec defines one: any of 0 to 4 while idle, `STATUS` alone while
busy (R195, R240). -/
def definedRegister (s : State) (r : Nat) : Option OutWord :=
  if s.status.busy ∧ r ≠ 1 then none else registerValue s r

/-- `RD r` (R195): the defined value, or an unspecified one (R197, R240). -/
def readRegister (r : Nat) (s : State) : State :=
  match definedRegister s r with
  | some v => answer (.register r v) s
  | none => answerFree (fun n => .register r (Config.freeRegister n)) s

/-- A write of `v` to register 0: while busy "ignored whatever its value" (R193); a command is run (R191); a reserved
word does nothing (R83, log 5); a value of more than 8 bits is no command word (R80, log 8). -/
def writeCommand (v : Nat) (s : State) : Host.Outcome State Fault Refusal :=
  if s.status.busy then .next s
  else
    match decode (.cmd8 v) with
    | .ok i => exec i s
    | .error (.notEightBits _) => .refused (.notACommandWord v)
    | .error _ => .next s

/-- A write to `IN_LEN`: its low `LEN_W` bits while idle, ignored while busy (R196, R239, R241). -/
def writeInLen (v : Nat) (s : State) : State := whenIdle (fun s => { s with inLen := BitVec.ofNat Config.lenW v }) s

/-- `WR r, v` (R196): effective only for `CMD` and `IN_LEN`; the read-only registers and the numbers that do not exist
ignore it (R197). -/
def writeRegister (r v : Nat) (s : State) : Host.Outcome State Fault Refusal :=
  match r with
  | 0 => writeCommand v s
  | 2 => .next (writeInLen v s)
  | _ => .next s

/-- `WRB i, v` (R198): while idle and below `CAP_IN`; otherwise ignored (R58, R239). -/
def writeIbuf (i : Nat) (v : Byte) (s : State) : State :=
  if s.status.busy = false ∧ i < Config.capIn then { s with ibuf := Memory.write s.ibuf i v } else s

/-- `RDB i` (R198): the element's current content, whether or not it is part of the result (R58); an unspecified value
while busy (R240) or at or beyond `CAP_OUT` (R58); a fault where the element holds no value (U3). -/
def readObuf (i : Nat) (s : State) : Host.Outcome State Fault Refusal :=
  if s.status.busy = false ∧ i < Config.capOut then
    withOperands (element .obuf s.obuf i) (fun v => answer (.element i v) s)
  else .next (answerFree (fun n => .element i (Config.freeElement n)) s)

/-- `RESET` (R230): the reset state of R40, at any time and in any state. The host's own fields are no part of the block
and are kept (log 2, 3, 4). -/
def assertReset (s : State) : State :=
  { State.reset with pending := s.pending, replies := s.replies, draws := s.draws }

/-- `LOAD x0 ... x(n-1)` (R95) from index `i` on: the `WRB` moves. -/
def loadFrom (i : Nat) : List Byte → List HostMove
  | [] => []
  | x :: xs => .wrb i x :: loadFrom (i + 1) xs

/-- `LOAD x0 ... x(n-1)` (R95): the `WRB` moves, then `WR IN_LEN, n`, with no `letRun` between them (log 2). -/
def load (xs : List Byte) : List HostMove := loadFrom 0 xs ++ [.wr 2 xs.length]

/-- `LOADS "text"` (R95): `LOAD` of the character codes of the text. -/
def loads (text : String) : Option (List HostMove) := (textCodes text.toList).map load

/-- `RDB 0 ... RDB m-1` (R95). -/
def readMoves (m : Nat) : List HostMove := (List.range m).map .rdb

/-- The value of the latest reply, a register's. -/
def latestRegister (s : State) : Nat :=
  match s.replies with
  | .register _ v :: _ => v.toNat
  | _ => 0

/-- The element a reply carries. -/
def Reply.element? : Reply → Option Byte
  | .register _ _ => none
  | .element _ v => some v

/-- The last `m` elements read, in the order in which they were read. -/
def lastElements (m : Nat) (s : State) : List Byte := ((s.replies.take m).filterMap Reply.element?).reverse

/-- Moves that come next. -/
def schedule (ms : List HostMove) (s : State) : State := { s with pending := ms ++ s.pending }

/-- One round of `WAIT` (R95): read `STATUS`; if `DONE` is not set, give the sequencer a turn and wait on (R246). That it
is exactly one turn is a DESIGN CHOICE (log 2). -/
def waitRound (s : State) : State :=
  let t := readRegister 1 s
  if s.status.done then t else schedule [.letRun, .wait] t

/-- `READOUT` (R95): read `OUT_LEN`, giving `m`; then the `RDB` moves. DESIGN CHOICE (log 2): the moves follow one another
and the sequencer has no turn between them, where R246 leaves the interleaving open; it shows only while busy. -/
def readoutMoves (s : State) : State :=
  let t := readRegister 3 s
  schedule (readMoves (latestRegister t)) t

/-- `COPYBACK` (R95): `READOUT`, giving `m` values; then `LOAD` of them. DESIGN CHOICE (log 2): as in `readoutMoves`, the
sequencer has no turn between its moves, those of the `LOAD` among them. -/
def copybackMoves (s : State) : State :=
  let t := readRegister 3 s
  schedule (readMoves (latestRegister t) ++ [.reload (latestRegister t)]) t

/-- The block's sequencer takes the step that `PHASE` and `rem` select; in `IDLE` it "has no step" and nothing changes
(R88, R224). -/
def sequencerStep (s : State) : Host.Outcome State Fault Refusal :=
  match decode (.phase3 (phaseCode s.phase) (remaining s)) with
  | .ok i => exec i s
  | .error _ => .next s

/-- One move of the host. -/
def hostMove (m : HostMove) (s : State) : Host.Outcome State Fault Refusal :=
  match m with
  | .rd r => .next (readRegister r s)
  | .wr r v => writeRegister r v s
  | .wrb i v => .next (writeIbuf i v s)
  | .rdb i => readObuf i s
  | .reset => .next (assertReset s)
  | .letRun => sequencerStep s
  | .wait => .next (waitRound s)
  | .readout => .next (readoutMoves s)
  | .copyback => .next (copybackMoves s)
  | .reload m => .next (schedule (load (lastElements m s)) s)

/-- The host's move is taken off the list as it is made. -/
def dropMove (s : State) : State := { s with pending := s.pending.tail }

/-- One event of the whole system: the host's next move, or, where it has none, the sequencer's step (log 2). -/
def event (s : State) : Host.Outcome State Fault Refusal :=
  match s.pending with
  | [] => sequencerStep s
  | m :: _ => hostMove m (dropMove s)

/-- Select the step of phase `p` with `rem = 0` and give the sequencer the turn. -/
def placePhase (p : Phase) (s : State) : State :=
  match p with
  | .encRun => { s with phase := p, idx := s.inLen, pending := .letRun :: s.pending }
  | .decEmit => { s with phase := p, idx := s.inLen, pending := .letRun :: s.pending }
  | _ => { s with phase := p, pending := .letRun :: s.pending }

/-- Place a word where the next event takes its instruction from: a `CMD8` word as the host's next write to register 0, a
`PHASE3` word as the phase (log 9). -/
def placeCodeWord (c : CodeWord) (s : State) : State :=
  match c with
  | .cmd8 v => { s with pending := .wr 0 v :: s.pending }
  | .phase3 code _ =>
    match phaseOfCode code with
    | some p => placePhase p s
    | none => s

end Sys2Proof.Machine
end

