-- ==== Sys2Proof/Machine/Step.lean ====
section
/-! DEFINITION. The step, and where the next instruction is taken from. -/

namespace Sys2Proof.Machine

/-- One step of the machine: one event of host or sequencer (R16, R88). -/
def step (s : State) : Host.Outcome State Fault Refusal := event s

/-- `s` with the opcode-table word `w` of `nbits` bits placed so that the very next step runs it (log 9). -/
def State.withFetchWord (s : State) (nbits w : Nat) : State :=
  match tableCodeWord nbits w with
  | some c => placeCodeWord c s
  | none => s

end Sys2Proof.Machine
end

