-- ==== Sys2Proof/Machine/FunctionLevel.lean ====
section
/-! DEFINITION. The function level (R17): `ENCODE(B)` of R141 and `DECODE(S, ign)` of R161, written from those rules and
not from the steps. -/

namespace Sys2Proof.Machine

/-- The characters of one full chunk (R141). -/
def encodeChunk (b0 b1 : Byte) : List Byte :=
  let (d0, d1, d2) := digits3 (pack16 b0 b1)
  [charAt d0, charAt d1, charAt d2]

/-- The characters of the trailing byte (R141). -/
def encodeLast (b : Byte) : List Byte :=
  let (d0, d1) := digits2 b
  [charAt d0, charAt d1]

/-- `ENCODE(B)` (R141). -/
def encodeBytes : List Byte → List Byte
  | [] => []
  | [b] => encodeLast b
  | b0 :: b1 :: rest => encodeChunk b0 b1 ++ encodeBytes rest

/-- The result of `DECODE` (R161). -/
inductive DecodeResult where
  | bytes (bs : List Byte)
  | invalidLength
  | invalidCharacter (pos : Nat)
  deriving DecidableEq, Repr

/-- Step 3 of R161 from position `i` on: the digits, or the position of the first character outside the alphabet. -/
def translateString (ign : Bool) (i : Nat) : List Byte → Except Nat (List DigitWord)
  | [] => .ok []
  | c :: rest =>
    if (indexOf c).valid = false ∧ ign = false then .error i
    else
      match translateString ign (i + 1) rest with
      | .error p => .error p
      | .ok ds => .ok ((indexOf c).idx :: ds)

/-- Steps 4 to 7 of R161: full runs, then the short run; a lone last digit gives no byte. -/
def emitBytes : List DigitWord → List Byte
  | [] => []
  | [_] => []
  | [d0, d1] => [trunc8 (mac2 d0 d1)]
  | d0 :: d1 :: d2 :: rest =>
    let (high8, low) := split16 (mac3 d0 d1 d2)
    high8 :: low :: emitBytes rest

/-- `DECODE(S, ign)` (R161). -/
def decodeString (str : List Byte) (ign : Bool) : DecodeResult :=
  if str.length = 0 then .bytes []
  else if str.length % 3 = 1 ∧ ign = false then .invalidLength
  else
    match translateString ign 0 str with
    | .error p => .invalidCharacter p
    | .ok ds => .bytes (emitBytes ds)

end Sys2Proof.Machine
end

