-- ==== Sys2Proof/Safety.lean ====
section
/-! DEFINITION. What counts as a safe run: the invariants of the block's state, and the duties of the host (R234 to R241,
R244). -/

namespace Sys2Proof.Machine

/-- R26: `BUSY = 1` exactly when `PHASE != IDLE`; `BUSY` and `DONE` are never both 1; `ERR != 0` implies `DONE = 1`. (`ERR`
is never 3 by its type.) -/
abbrev StatusInv (s : State) : Prop :=
  (s.status.busy = true ↔ s.phase ≠ .idle) ∧
  ¬ (s.status.busy = true ∧ s.status.done = true) ∧
  (s.status.err ≠ .none → s.status.done = true)

/-- The three buffers are in canonical form, and hold values only at the indices they have (R34, R35, R36). -/
abbrev MemoryInv (s : State) : Prop :=
  Memory.wf Config.capIn s.ibuf = true ∧ Memory.wf Config.capOut s.obuf = true ∧
  Memory.wf Config.capIn s.dbuf = true

/-- The element holds a digit, 0 to 44. -/
def holdsDigit : Option DigitWord → Bool
  | some d => decide (d.toNat < 45)
  | none => false

/-- `DBUF[0 .. IN_LEN-1]` hold digits. -/
abbrev DigitsReady (s : State) : Prop :=
  ∀ i, i < s.inLen.toNat → holdsDigit (Memory.read s.dbuf i) = true

/-- `OBUF[0 .. n-1]` hold values. -/
abbrev OutputReady (n : Nat) (s : State) : Prop :=
  ∀ i, i < n → (Memory.read s.obuf i).isSome = true

/-- `IBUF[0 .. IN_LEN-1]` hold values: the host duty of R236. -/
abbrev Loaded (s : State) : Prop :=
  ∀ i, i < s.inLen.toNat → (Memory.read s.ibuf i).isSome = true

/-- While an `ENCODE` runs (R23, R142 to R146): the policy bits are clear, `IDX` is at a chunk and `ODX` where the length
law puts it, and the elements below `ODX` are written. -/
abbrev EncodeInv (s : State) : Prop :=
  s.opr = false ∧ s.ignr = false ∧ s.idx.toNat ≤ s.inLen.toNat ∧
  (s.idx.toNat % 2 = 0 ∨ s.idx.toNat = s.inLen.toNat) ∧
  s.outLen.toNat = encodeLen s.inLen.toNat ∧ s.odx.toNat = encodeLen s.idx.toNat ∧
  OutputReady s.odx.toNat s

/-- Before the length check of a decode (R163, R192). -/
abbrev CheckInv (s : State) : Prop :=
  s.opr = true ∧ s.idx = 0 ∧ s.odx = 0 ∧ s.outLen = 0

/-- After the length check of a decode (R165, R171): a length of 1 modulo 3 stands only under `IGNR`. -/
abbrev CheckedInv (s : State) : Prop :=
  s.opr = true ∧ (s.inLen.toNat % 3 = 1 → s.ignr = true) ∧
  s.outLen.toNat = decodeLen s.inLen.toNat ∧ DigitsReady s

/-- `DBUF[IDX .. IN_LEN-1]` still hold the 0 that DEC_CHECK put there (R165, R167). -/
abbrev PlaceholdersReady (s : State) : Prop :=
  ∀ i, i < s.inLen.toNat → s.idx.toNat ≤ i → Memory.read s.dbuf i = some 0

/-- While a decode translates (R88: "`rem >= 1` holds"). -/
abbrev TranslateInv (s : State) : Prop :=
  CheckedInv s ∧ s.idx.toNat < s.inLen.toNat ∧ s.odx = 0 ∧ PlaceholdersReady s

/-- While a decode emits (R23, R168 to R171). -/
abbrev EmitInv (s : State) : Prop :=
  CheckedInv s ∧ s.idx.toNat ≤ s.inLen.toNat ∧
  (s.idx.toNat % 3 = 0 ∨ s.idx.toNat = s.inLen.toNat) ∧
  s.odx.toNat = decodeLen s.idx.toNat ∧ OutputReady s.odx.toNat s

/-- After a completion without error the result stands in `OBUF` (R35); after an error `OUT_LEN` is 0 (R213). -/
abbrev ResultInv (s : State) : Prop :=
  s.status.done = true → OutputReady s.outLen.toNat s

/-- The sequencer's invariant, phase by phase. -/
abbrev SequencerInv (s : State) : Prop :=
  (s.phase = .idle → ResultInv s) ∧ (s.phase = .encRun → EncodeInv s) ∧
  (s.phase = .decChk → CheckInv s) ∧ (s.phase = .decXl → TranslateInv s) ∧
  (s.phase = .decEmit → EmitInv s)

/-- The invariant of the block. -/
abbrev BlockInv (s : State) : Prop := StatusInv s ∧ MemoryInv s ∧ SequencerInv s

/-- Whether every element a command reads has been written (R236). -/
def loaded (s : State) : Bool :=
  (List.range s.inLen.toNat).all (fun i => (Memory.read s.ibuf i).isSome)

/-- The host's duties (R236 to R241, R244), move by move: no command, input write or result read while busy; no reserved
word; no register, element or length that the block does not have; a command only on a loaded input; a result read only
after a completion, within the result. -/
def keepsDuties (s : State) : HostMove → Bool
  | .rd r => decide (r = 1) || (!s.status.busy && decide (r ≤ 4))
  | .wr 0 v => decide (v = 0) || (!s.status.busy && decide (v < 4) && loaded s)
  | .wr 2 v => !s.status.busy && decide (v < 2 ^ Config.lenW)
  | .wr r _ => decide (r ≤ 4)
  | .wrb i _ => !s.status.busy && decide (i < Config.capIn)
  | .rdb i => !s.status.busy && s.status.done && decide (i < s.outLen.toNat)
  | .reset => true
  | .letRun => true
  | .wait => true
  | .readout => !s.status.busy && s.status.done
  | .copyback => !s.status.busy && s.status.done && decide (s.outLen.toNat ≤ Config.capIn)
  | .reload _ => true

/-- `t` has the block's whole state of `s`: only the model's own fields may differ. -/
abbrev SameBlock (s t : State) : Prop :=
  t = { s with pending := t.pending, replies := t.replies, draws := t.draws }

end Sys2Proof.Machine
end

