-- ==== Sys2Proof/Certificates/Slice0/Obligations.lean ====
section
/-! DEFINITION. The statements for the provers. Each docstring names the rule or section of spec/ it formalises. Where a
rule is marked `[derived: ...]` by the spec itself the statement is 'derived', and where a clause rests on a choice of the
model the docstring names the log entry. -/

open Sys2Proof Sys2Proof.Machine

/-! ## Reset and the step -/

/-- R230, R231, R40: asserting reset at any time, in any state, puts the block into the reset state, a running command
or not; and what that state is. -/
def Obligations.ResetPutsTheBlockInTheResetState : Prop :=
  (∀ (s : State) (rest : List HostMove), s.pending = .reset :: rest →
    ∃ t, step s = .next t ∧ SameBlock State.reset t) ∧
  statusWord State.reset.status = 0x00 ∧ State.reset.inLen = 0 ∧ State.reset.outLen = 0 ∧
  State.reset.errPos = 0 ∧ State.reset.opr = false ∧ State.reset.ignr = false ∧
  State.reset.phase = .idle ∧ State.reset.idx = 0 ∧ State.reset.odx = 0 ∧
  ∀ i, Memory.read State.reset.ibuf i = none ∧ Memory.read State.reset.obuf i = none ∧
    Memory.read State.reset.dbuf i = none

/-- The invariant of the block holds at reset (R26, R40). -/
def Obligations.ResetMeetsTheInvariant : Prop := BlockInv State.reset

/-- R88, R191: a step runs the decoded instruction. With no move of the host, or with the host's turn given away, the
sequencer runs the step that `PHASE` and `rem` select, and in `IDLE` it has none; a write of a command word to register 0
runs that command. (That the list `pending` says whose turn it is is the model's choice, log 2.) -/
def Obligations.StepRunsTheDecodedInstruction : Prop :=
  (∀ (s : State) (i : Instr), s.pending = [] →
    decode (.phase3 (phaseCode s.phase) (remaining s)) = .ok i → step s = exec i s) ∧
  (∀ (s : State) (i : Instr) (rest : List HostMove), s.pending = .letRun :: rest →
    decode (.phase3 (phaseCode s.phase) (remaining s)) = .ok i →
    step s = exec i { s with pending := rest }) ∧
  (∀ (s : State) (v : Nat) (i : Instr) (rest : List HostMove), s.pending = .wr 0 v :: rest →
    decode (.cmd8 v) = .ok i → step s = exec i { s with pending := rest }) ∧
  (∀ (s : State) (v : Nat) (i : Instr), decode (.cmd8 v) = .ok i → v < 256 →
    step (s.withFetchWord 8 v) = exec i s) ∧
  (∀ s : State, s.pending = [] → s.phase = .idle → step s = .next s)

/-! ## Decoding -/

/-- R82: the four command words, and a few step selections of R88, written out. -/
def Obligations.WrittenOutWordsDecode : Prop :=
  decode (.cmd8 0b00000000) = .ok .nop ∧ decode (.cmd8 0b00000001) = .ok .encode ∧
  decode (.cmd8 0b00000010) = .ok .decode ∧ decode (.cmd8 0b00000011) = .ok .decodeIgn ∧
  decode (.phase3 0b001 2) = .ok .encPair ∧ decode (.phase3 0b010 7) = .ok .decCheck ∧
  decode (.phase3 0b011 1) = .ok .decXlat ∧ decode (.phase3 0b100 3) = .ok .decTriple

/-- R80, R82, R83: the words `0x04` to `0xFF` are reserved, a longer value is no command word, and phase codes without a
step are refused by name (R87). -/
def Obligations.WordsWithoutAnInstructionAreRefusedByName : Prop :=
  (∀ v, 4 ≤ v → v < 256 → decode (.cmd8 v) = .error (.reservedCommand v)) ∧
  (∀ v, 256 ≤ v → decode (.cmd8 v) = .error (.notEightBits v)) ∧
  (∀ rem, decode (.phase3 0 rem) = .error .idlePhase) ∧
  (∀ code rem, 5 ≤ code → code < 8 → decode (.phase3 code rem) = .error (.unusedPhase code)) ∧
  ∀ code rem, 8 ≤ code → decode (.phase3 code rem) = .error (.notThreeBits code)

/-- R82, R88: a word decodes to an instruction exactly when it is a word of that instruction's row. -/
def Obligations.WordsDecodeExactlyAsTheTableSays : Prop :=
  ∀ (w : CodeWord) (i : Instr), decode w = .ok i ↔
    match i with
    | .nop => w = .cmd8 0
    | .encode => w = .cmd8 1
    | .decode => w = .cmd8 2
    | .decodeIgn => w = .cmd8 3
    | .encPair => ∃ rem, 2 ≤ rem ∧ w = .phase3 1 rem
    | .encTail => w = .phase3 1 1
    | .encFin => w = .phase3 1 0
    | .decCheck => ∃ rem, w = .phase3 2 rem
    | .decXlat => ∃ rem, w = .phase3 3 rem
    | .decTriple => ∃ rem, 3 ≤ rem ∧ w = .phase3 4 rem
    | .decPair => w = .phase3 4 2
    | .decDrop => w = .phase3 4 1
    | .decFin => w = .phase3 4 0

/-- Decoding what the encoder writes gives the instruction back, and the well-formed words are exactly those that decode
(R80, R83, R87). -/
def Obligations.DecodeAndEncodeAgree : Prop :=
  (∀ i : Instr, i.wellFormed = true → decode (encode i) = .ok i) ∧
  ∀ w : CodeWord, w.wellFormed = true ↔ ∃ i, decode w = .ok i

/-- R88: the sequencer's table. With no move of the host, the step that `PHASE` and `rem = IN_LEN - IDX` select is run,
and the next phase is one the table names. -/
def Obligations.SequencerFollowsThePhaseTable : Prop :=
  ∀ s : State, s.pending = [] →
    (s.phase = .encRun → 2 ≤ remaining s → step s = exec .encPair s) ∧
    (s.phase = .encRun → remaining s = 1 → step s = exec .encTail s) ∧
    (s.phase = .encRun → remaining s = 0 → step s = exec .encFin s) ∧
    (s.phase = .decChk → step s = exec .decCheck s) ∧
    (s.phase = .decXl → step s = exec .decXlat s) ∧
    (s.phase = .decEmit → 3 ≤ remaining s → step s = exec .decTriple s) ∧
    (s.phase = .decEmit → remaining s = 2 → step s = exec .decPair s) ∧
    (s.phase = .decEmit → remaining s = 1 → step s = exec .decDrop s) ∧
    (s.phase = .decEmit → remaining s = 0 → step s = exec .decFin s) ∧
    ∀ t, step s = .next t →
      match s.phase with
      | .idle => t.phase = .idle
      | .encRun => t.phase = if remaining s = 0 then .idle else .encRun
      | .decChk =>
        t.phase = if s.inLen = 0 ∨ (s.inLen.toNat % 3 = 1 ∧ s.ignr = false) then .idle else .decXl
      | .decXl =>
        t.phase = .idle ∧ t.status.err = .invalidCharacter ∨
        t.phase = .decEmit ∧ s.idx + 1 = s.inLen ∨
        t.phase = .decXl ∧ s.idx + 1 ≠ s.inLen
      | .decEmit => t.phase = if remaining s = 0 then .idle else .decEmit

/-! ## The commands -/

/-- R190: `NOP` has no effect, whether `BUSY` is 0 or 1. -/
def Obligations.NopChangesNothing : Prop :=
  (∀ s : State, exec .nop s = .next s) ∧
  ∀ (s : State) (rest : List HostMove), s.pending = .wr 0 0x00 :: rest →
    step s = .next { s with pending := rest }

/-- R191, R192: a write to register 0 while idle of a word with bits 7:2 zero and bits 1:0 not zero is an accepted
command, and these are its effects, common to the three; the three buffers are not cleared. -/
def Obligations.AcceptanceHasTheCommonEffects : Prop :=
  ∀ (s : State) (v : Nat) (rest : List HostMove), s.pending = .wr 0 v :: rest → s.status.busy = false →
    v < 256 → v / 4 = 0 → v % 4 ≠ 0 →
    ∃ t, step s = .next t ∧ (t.opr = true ↔ v / 2 % 2 = 1) ∧ (t.ignr = true ↔ v / 2 % 2 = 1 ∧ v % 2 = 1) ∧
      t.status = { busy := true, done := false, err := .none } ∧ t.errPos = 0 ∧ t.idx = 0 ∧ t.odx = 0 ∧
      (v ≠ 1 → t.outLen = 0) ∧ t.ibuf = s.ibuf ∧ t.obuf = s.obuf ∧ t.dbuf = s.dbuf ∧ t.inLen = s.inLen

/-- R142, R192: the acceptance of `ENCODE`. -/
def Obligations.EncodeIsAccepted : Prop :=
  ∀ s : State, s.status.busy = false →
    ∃ len : OutWord, len.toNat = 3 * (s.inLen.toNat / 2) + 2 * (s.inLen.toNat % 2) ∧
      exec .encode s = .next
        { s with
          opr := false, ignr := false, status := { busy := true, done := false, err := .none },
          errPos := 0, outLen := len, idx := 0, odx := 0, phase := .encRun }

/-- R163, R192, R32: the acceptance of `DECODE` and of `DECODE.IGN`. -/
def Obligations.DecodeIsAccepted : Prop :=
  ∀ s : State, s.status.busy = false →
    (exec .decode s = .next
      { s with
        opr := true, ignr := false, status := { busy := true, done := false, err := .none },
        errPos := 0, outLen := 0, idx := 0, odx := 0, phase := .decChk }) ∧
    exec .decodeIgn s = .next
      { s with
        opr := true, ignr := true, status := { busy := true, done := false, err := .none },
        errPos := 0, outLen := 0, idx := 0, odx := 0, phase := .decChk }

/-- R193: a write to register 0 while `BUSY = 1` is ignored whatever its value, and is not queued. -/
def Obligations.CommandWhileBusyIsIgnored : Prop :=
  ∀ (s : State) (v : Nat) (rest : List HostMove), s.status.busy = true → s.pending = .wr 0 v :: rest →
    step s = .next { s with pending := rest }

/-- The hardware's effect of a reserved command word, none (`30_encoding.md` section 2). R83 also recommends that a model
refuse the word; that this model takes the effect instead is its choice, log 5. A value of more than 8 bits is refused by
name while idle (log 8). -/
def Obligations.ReservedCommandWordDoesNothing : Prop :=
  ∀ (s : State) (v : Nat) (rest : List HostMove), s.pending = .wr 0 v :: rest →
    (4 ≤ v → v < 256 → step s = .next { s with pending := rest }) ∧
    (256 ≤ v → s.status.busy = false → step s = .refused (.notACommandWord v))

/-- R215, R190: the return from an error is the next accepted command, which clears it and modifies neither `IBUF` nor
`IN_LEN`; `NOP` does not clear it. -/
def Obligations.NextCommandLeavesTheErrorState : Prop :=
  ∀ s : State, s.status.busy = false →
    exec .nop s = .next s ∧
    ∀ i, i = .encode ∨ i = .decode ∨ i = .decodeIgn →
      ∃ t, exec i s = .next t ∧ t.status = { busy := true, done := false, err := .none } ∧ t.errPos = 0 ∧
        t.ibuf = s.ibuf ∧ t.inLen = s.inLen ∧ t.obuf = s.obuf

/-! ## The steps of ENCODE -/

/-- R143: ENC_PAIR emits the three base-45 digits of `b0*256 + b1`, least significant first, and advances `IDX` by 2 and
`ODX` by 3; nothing else changes. -/
def Obligations.EncPairEmitsThreeCharacters : Prop :=
  ∀ (s : State) (b0 b1 : Byte),
    Memory.read s.ibuf s.idx.toNat = some b0 → Memory.read s.ibuf (s.idx + 1).toNat = some b1 →
    ∃ m : Buffer 8,
      exec .encPair s = .next { s with idx := s.idx + 2, odx := s.odx + 3, obuf := m } ∧
      Memory.read m s.odx.toNat = some (charAt (Fin.ofNat 45 ((b0.toNat * 256 + b1.toNat) % 45))) ∧
      Memory.read m (s.odx + 1).toNat = some (charAt (Fin.ofNat 45 ((b0.toNat * 256 + b1.toNat) / 45 % 45))) ∧
      Memory.read m (s.odx + 2).toNat = some (charAt (Fin.ofNat 45 ((b0.toNat * 256 + b1.toNat) / 2025 % 45))) ∧
      ∀ a, a ≠ s.odx.toNat → a ≠ (s.odx + 1).toNat → a ≠ (s.odx + 2).toNat →
        Memory.read m a = Memory.read s.obuf a

/-- R144: ENC_TAIL emits two characters by the tail rule and advances `IDX` by 1 and `ODX` by 2; nothing else changes. In
a state that meets the sequencer's invariant it is selected only when `IN_LEN` is odd, and no input remains after it. -/
def Obligations.EncTailEmitsTwoCharacters : Prop :=
  (∀ (s : State) (b : Byte), Memory.read s.ibuf s.idx.toNat = some b →
    ∃ m : Buffer 8,
      exec .encTail s = .next { s with idx := s.idx + 1, odx := s.odx + 2, obuf := m } ∧
      Memory.read m s.odx.toNat = some (charAt (Fin.ofNat 45 (b.toNat % 45))) ∧
      Memory.read m (s.odx + 1).toNat =
        some (if b.toNat < 45 then charAt 0 else charAt (Fin.ofNat 45 (b.toNat / 45 % 45))) ∧
      ∀ a, a ≠ s.odx.toNat → a ≠ (s.odx + 1).toNat → Memory.read m a = Memory.read s.obuf a) ∧
  ∀ s : State, SequencerInv s → s.phase = .encRun → remaining s = 1 →
    s.inLen.toNat % 2 = 1 ∧ ∀ t, exec .encTail s = .next t → t.phase = .encRun ∧ remaining t = 0

/-- R145: ENC_FIN completes the command; `ERR` stays 0 and `ODX = OUT_LEN` at this point (in a state that meets the
invariant). -/
def Obligations.EncFinCompletes : Prop :=
  (∀ s : State, exec .encFin s = .next
    { s with status := { busy := false, done := true, err := s.status.err }, phase := .idle }) ∧
  ∀ s : State, StatusInv s → SequencerInv s → s.phase = .encRun → remaining s = 0 →
    s.odx = s.outLen ∧ s.status.err = .none

/-! ## The steps of DECODE -/

/-- R165: DEC_CHECK, its three ends. -/
def Obligations.DecCheckChecksTheLength : Prop :=
  ∀ s : State,
    (s.inLen.toNat = 0 → exec .decCheck s = .next
      { s with
        outLen := 0, status := { busy := false, done := true, err := s.status.err }, phase := .idle }) ∧
    (s.inLen.toNat % 3 = 1 → s.ignr = false → exec .decCheck s = .next
      { s with
        status := { busy := false, done := true, err := .invalidLength }, errPos := 0, outLen := 0,
        phase := .idle }) ∧
    (s.inLen.toNat ≠ 0 → (s.inLen.toNat % 3 = 1 → s.ignr = true) →
      ∃ (len : OutWord) (m : Buffer 6),
        len.toNat = 2 * (s.inLen.toNat / 3) + (if s.inLen.toNat % 3 = 2 then 1 else 0) ∧
        (∀ i, i < s.inLen.toNat → Memory.read m i = some 0) ∧
        (∀ i, s.inLen.toNat ≤ i → Memory.read m i = Memory.read s.dbuf i) ∧
        exec .decCheck s = .next { s with outLen := len, dbuf := m, idx := 0, odx := 0, phase := .decXl })

/-- R166: DEC_XLAT on a character of the alphabet stores its index and moves on; when it is enabled, `IDX < IN_LEN` (in a
state that meets the invariant). -/
def Obligations.DecXlatStoresTheDigit : Prop :=
  (∀ (s : State) (c : Byte), Memory.read s.ibuf s.idx.toNat = some c → (indexOf c).valid = true →
    ∃ m : Buffer 6,
      Memory.read m s.idx.toNat = some (indexOf c).idx ∧
      (∀ i, i ≠ s.idx.toNat → Memory.read m i = Memory.read s.dbuf i) ∧
      (s.idx + 1 = s.inLen → exec .decXlat s = .next { s with dbuf := m, idx := 0, phase := .decEmit }) ∧
      (s.idx + 1 ≠ s.inLen → exec .decXlat s = .next { s with dbuf := m, idx := s.idx + 1 })) ∧
  ∀ s : State, SequencerInv s → s.phase = .decXl → s.idx.toNat < s.inLen.toNat

/-- R167, R212: DEC_XLAT on a character outside the alphabet raises `InvalidCharacter` at that index, or under `IGNR`
stores nothing and moves on, `DBUF[IDX]` keeping the 0 of DEC_CHECK (in a state that meets the invariant). -/
def Obligations.DecXlatOutsideTheAlphabet : Prop :=
  (∀ (s : State) (c : Byte), Memory.read s.ibuf s.idx.toNat = some c → (indexOf c).valid = false →
    (s.ignr = false → exec .decXlat s = .next
      { s with
        status := { busy := false, done := true, err := .invalidCharacter }, errPos := s.idx, outLen := 0,
        phase := .idle }) ∧
    (s.ignr = true → s.idx + 1 = s.inLen →
      exec .decXlat s = .next { s with idx := 0, phase := .decEmit }) ∧
    (s.ignr = true → s.idx + 1 ≠ s.inLen → exec .decXlat s = .next { s with idx := s.idx + 1 })) ∧
  ∀ s : State, SequencerInv s → s.phase = .decXl → Memory.read s.dbuf s.idx.toNat = some 0

/-- R168, R130: DEC_TRIPLE stores the high byte and the low byte of `d0 + 45*d1 + 2025*d2`, each kept to 8 bits, and
advances `IDX` by 3 and `ODX` by 2; nothing else changes. -/
def Obligations.DecTripleEmitsTwoBytes : Prop :=
  ∀ (s : State) (d0 d1 d2 : DigitWord),
    Memory.read s.dbuf s.idx.toNat = some d0 → Memory.read s.dbuf (s.idx + 1).toNat = some d1 →
    Memory.read s.dbuf (s.idx + 2).toNat = some d2 →
    ∃ m : Buffer 8,
      exec .decTriple s = .next { s with idx := s.idx + 3, odx := s.odx + 2, obuf := m } ∧
      Memory.read m s.odx.toNat =
        some (BitVec.ofNat 8 ((d0.toNat + 45 * d1.toNat + 2025 * d2.toNat) / 256 % 256)) ∧
      Memory.read m (s.odx + 1).toNat =
        some (BitVec.ofNat 8 ((d0.toNat + 45 * d1.toNat + 2025 * d2.toNat) % 256)) ∧
      ∀ a, a ≠ s.odx.toNat → a ≠ (s.odx + 1).toNat → Memory.read m a = Memory.read s.obuf a

/-- R169, R131: DEC_PAIR stores the low 8 bits of `d0 + 45*d1` and advances `IDX` by 2 and `ODX` by 1; nothing else
changes. In a state that meets the invariant it is selected only when `IN_LEN % 3 = 2`, and no input remains after it. -/
def Obligations.DecPairEmitsOneByte : Prop :=
  (∀ (s : State) (d0 d1 : DigitWord),
    Memory.read s.dbuf s.idx.toNat = some d0 → Memory.read s.dbuf (s.idx + 1).toNat = some d1 →
    ∃ m : Buffer 8,
      exec .decPair s = .next { s with idx := s.idx + 2, odx := s.odx + 1, obuf := m } ∧
      Memory.read m s.odx.toNat = some (BitVec.ofNat 8 ((d0.toNat + 45 * d1.toNat) % 256)) ∧
      ∀ a, a ≠ s.odx.toNat → Memory.read m a = Memory.read s.obuf a) ∧
  ∀ s : State, SequencerInv s → s.phase = .decEmit → remaining s = 2 →
    s.inLen.toNat % 3 = 2 ∧ ∀ t, exec .decPair s = .next t → t.phase = .decEmit ∧ remaining t = 0

/-- R170: DEC_DROP only advances `IDX` by 1. In a state that meets the invariant it is selected only under `IGNR = 1` with
`IN_LEN % 3 = 1`. -/
def Obligations.DecDropEmitsNothing : Prop :=
  (∀ s : State, exec .decDrop s = .next { s with idx := s.idx + 1 }) ∧
  ∀ s : State, SequencerInv s → s.phase = .decEmit → remaining s = 1 →
    s.ignr = true ∧ s.inLen.toNat % 3 = 1

/-- DEC_FIN completes the command, and `ERR` stays 0 (R173, `43_decode.md` section 3); that `ODX = OUT_LEN` at that point is
the length law R171, which the spec derives (both in a state that meets the invariant). -/
def Obligations.DecFinCompletes : Prop :=
  (∀ s : State, exec .decFin s = .next
    { s with status := { busy := false, done := true, err := s.status.err }, phase := .idle }) ∧
  ∀ s : State, StatusInv s → SequencerInv s → s.phase = .decEmit → remaining s = 0 →
    s.odx = s.outLen ∧ s.status.err = .none

/-- A step that reads a buffer element that holds no value stops with the fault that names the buffer and the first such
element in the order of increasing index. The model's choice, log 11 (DESIGN CHOICE): R151 and R179 say only that such a
step has no defined result; U3 asks a model to fault, naming the buffer and the index, and does not say which of several
such elements is named: that it is the first, the operands being read in increasing index, is the model's alone. -/
def Obligations.StepFaultsOnAnElementThatHoldsNoValue : Prop :=
  ∀ s : State,
    (Memory.read s.ibuf s.idx.toNat = none →
      exec .encPair s = .fault (.noValue .ibuf s.idx.toNat) ∧
      exec .encTail s = .fault (.noValue .ibuf s.idx.toNat) ∧
      exec .decXlat s = .fault (.noValue .ibuf s.idx.toNat)) ∧
    (∀ b, Memory.read s.ibuf s.idx.toNat = some b → Memory.read s.ibuf (s.idx + 1).toNat = none →
      exec .encPair s = .fault (.noValue .ibuf (s.idx + 1).toNat)) ∧
    (Memory.read s.dbuf s.idx.toNat = none →
      exec .decTriple s = .fault (.noValue .dbuf s.idx.toNat) ∧
      exec .decPair s = .fault (.noValue .dbuf s.idx.toNat)) ∧
    (∀ d, Memory.read s.dbuf s.idx.toNat = some d → Memory.read s.dbuf (s.idx + 1).toNat = none →
      exec .decTriple s = .fault (.noValue .dbuf (s.idx + 1).toNat) ∧
      exec .decPair s = .fault (.noValue .dbuf (s.idx + 1).toNat)) ∧
    ∀ d0 d1, Memory.read s.dbuf s.idx.toNat = some d0 → Memory.read s.dbuf (s.idx + 1).toNat = some d1 →
      Memory.read s.dbuf (s.idx + 2).toNat = none →
      exec .decTriple s = .fault (.noValue .dbuf (s.idx + 2).toNat)

/-! ## Frames over all instructions -/

/-- R34 (`10_state.md` section 4), D31: no instruction writes `IBUF` or `IN_LEN`, nor anything of the host's side. -/
def Obligations.NoInstructionChangesTheInput : Prop :=
  ∀ (i : Instr) (s t : State), exec i s = .next t →
    t.ibuf = s.ibuf ∧ t.inLen = s.inLen ∧ t.pending = s.pending ∧ t.replies = s.replies ∧ t.draws = s.draws

/-- R50 (`20_memory.md` section 1): only ENC_PAIR, ENC_TAIL, DEC_TRIPLE and DEC_PAIR write `OBUF`, at `ODX .. ODX+2`, and
only DEC_CHECK and DEC_XLAT write `DBUF`. -/
def Obligations.OnlyTheEmittingStepsWriteTheOutput : Prop :=
  ∀ (i : Instr) (s t : State), exec i s = .next t →
    (i ≠ .encPair → i ≠ .encTail → i ≠ .decTriple → i ≠ .decPair → t.obuf = s.obuf) ∧
    (i ≠ .decCheck → i ≠ .decXlat → t.dbuf = s.dbuf) ∧
    ∀ a, a ≠ s.odx.toNat → a ≠ (s.odx + 1).toNat → a ≠ (s.odx + 2).toNat →
      Memory.read t.obuf a = Memory.read s.obuf a

/-- R202, R207, R213: an instruction that changes `ERR` to an error is DEC_CHECK or DEC_XLAT under `IGNR = 0`; it leaves
`OUT_LEN = 0`, `OBUF` as it was, and the block idle with `DONE = 1`. -/
def Obligations.ErrorsComeOnlyFromStrictDecoding : Prop :=
  ∀ (i : Instr) (s t : State), exec i s = .next t → t.status.err ≠ s.status.err → t.status.err ≠ .none →
    (i = .decCheck ∧ t.status.err = .invalidLength ∧ t.errPos = 0 ∨
      i = .decXlat ∧ t.status.err = .invalidCharacter ∧ t.errPos = s.idx) ∧
    s.ignr = false ∧ t.outLen = 0 ∧ t.obuf = s.obuf ∧ t.phase = .idle ∧ t.status.busy = false ∧
    t.status.done = true

/-! ## The ports -/

/-- `RD r` (`44_control.md` R195, `70_reset_and_hazards.md` R240): while idle the five registers; while busy `STATUS`
alone, and any other register an unspecified value. The last clause rests on choices of the model: that register 0 too
reads as an unspecified value while busy is log 13 (R24 and R195 also say that it reads as 0), that an unspecified read
answers a free value and advances `draws` is log 4, and it takes in the registers 5 and above of R197 (log 5). -/
def Obligations.RegisterReadsReturnTheRegisters : Prop :=
  ∀ (s : State) (r : Nat) (rest : List HostMove), s.pending = .rd r :: rest →
    (r = 1 → step s = .next
      { s with
        pending := rest,
        replies := .register 1 (BitVec.ofNat Config.olenW
          ((if s.status.busy then 1 else 0) + (if s.status.done then 2 else 0) +
            match s.status.err with
            | .none => 0
            | .invalidLength => 4
            | .invalidCharacter => 8)) :: s.replies }) ∧
    (s.status.busy = false → r = 0 → step s = .next
      { s with pending := rest, replies := .register 0 0 :: s.replies }) ∧
    (s.status.busy = false → r = 2 → step s = .next
      { s with pending := rest, replies := .register 2 (BitVec.ofNat Config.olenW s.inLen.toNat) :: s.replies }) ∧
    (s.status.busy = false → r = 3 → step s = .next
      { s with pending := rest, replies := .register 3 s.outLen :: s.replies }) ∧
    (s.status.busy = false → r = 4 → step s = .next
      { s with pending := rest, replies := .register 4 (BitVec.ofNat Config.olenW s.errPos.toNat) :: s.replies }) ∧
    (s.status.busy = true → r ≠ 1 → ∃ v, step s = .next
      { s with pending := rest, replies := .register r v :: s.replies, draws := s.draws + 1 })

/-- `WR r, v` (`44_control.md` R196, `70_reset_and_hazards.md` R241): register 0 takes a command; register 2 takes the low
`LEN_W` bits while idle and nothing while busy; 1, 3 and 4 ignore the write; no write raises an error. That a value above
`2^LEN_W - 1` is stored truncated, where R241 and U7 also recommend that a model refuse it, is the model's choice, log 5;
`LEN_W` = 16 is log 1. -/
def Obligations.RegisterWritesReachCmdAndInLen : Prop :=
  ∀ (s : State) (r v : Nat) (rest : List HostMove), s.pending = .wr r v :: rest →
    (∀ i, r = 0 → decode (.cmd8 v) = .ok i → step s = exec i { s with pending := rest }) ∧
    (r = 2 → s.status.busy = false → ∃ n : LenWord, n.toNat = v % 2 ^ Config.lenW ∧
      step s = .next { s with pending := rest, inLen := n }) ∧
    (r = 2 → s.status.busy = true → step s = .next { s with pending := rest }) ∧
    (r = 1 ∨ r = 3 ∨ r = 4 → step s = .next { s with pending := rest }) ∧
    ∀ t, step s = .next t → t.status.err = s.status.err ∨ t.status.err = .none

/-- `WRB i, v` and `RDB i` inside the buffers (`44_control.md` R198, `70_reset_and_hazards.md` R239, R240); while busy a
write is ignored and a read returns an unspecified value. Choices of the model: the fault of a read of an `OBUF` element
that holds no value is log 11 (U3), the free value of a read while busy and its counter are log 4, and the capacities
`CAP_IN` and `CAP_OUT` follow `LEN_W` = 16, log 1. -/
def Obligations.BufferPortsReachIbufAndObuf : Prop :=
  (∀ (s : State) (i : Nat) (v : Byte) (rest : List HostMove), s.pending = .wrb i v :: rest →
    (s.status.busy = false → i < Config.capIn → ∃ m : Buffer 8,
      step s = .next { s with pending := rest, ibuf := m } ∧ Memory.read m i = some v ∧
      ∀ a, a ≠ i → Memory.read m a = Memory.read s.ibuf a) ∧
    (s.status.busy = true → step s = .next { s with pending := rest })) ∧
  ∀ (s : State) (i : Nat) (rest : List HostMove), s.pending = .rdb i :: rest →
    (s.status.busy = false → i < Config.capOut → ∀ v, Memory.read s.obuf i = some v →
      step s = .next { s with pending := rest, replies := .element i v :: s.replies }) ∧
    (s.status.busy = false → i < Config.capOut → Memory.read s.obuf i = none →
      step s = .fault (.noValue .obuf i)) ∧
    (s.status.busy = true → ∃ v, step s = .next
      { s with pending := rest, replies := .element i v :: s.replies, draws := s.draws + 1 })

/-- What the hardware does at a register or an element it does not have (`44_control.md` section on `RD`, `WR`;
`20_memory.md` section 3): a write is ignored, a read returns an unspecified value. R58 and R197 also recommend that a
model refuse; that this model goes on is its choice, log 5; the free value of a read and its counter are log 4, and the
capacities `CAP_IN` and `CAP_OUT` follow `LEN_W` = 16, log 1. -/
def Obligations.NonexistentRegistersAndElementsAreInert : Prop :=
  ∀ (s : State) (rest : List HostMove),
    (∀ r v, 5 ≤ r → s.pending = .wr r v :: rest → step s = .next { s with pending := rest }) ∧
    (∀ i v, Config.capIn ≤ i → s.pending = .wrb i v :: rest → step s = .next { s with pending := rest }) ∧
    (∀ r, 5 ≤ r → s.pending = .rd r :: rest → ∃ v, step s = .next
      { s with pending := rest, replies := .register r v :: s.replies, draws := s.draws + 1 }) ∧
    ∀ i, Config.capOut ≤ i → s.pending = .rdb i :: rest → ∃ v, step s = .next
      { s with pending := rest, replies := .element i v :: s.replies, draws := s.draws + 1 }

/-- R194 (with R193, R239, R240): while a command runs, no move of the host but reset (and the turn it gives to the
sequencer) changes anything of the block. -/
def Obligations.OnlyResetStopsARunningCommand : Prop :=
  ∀ (s : State) (m : HostMove) (rest : List HostMove), s.status.busy = true → s.pending = m :: rest →
    m ≠ .reset → m ≠ .letRun → ∃ t, step s = .next t ∧ SameBlock s t

/-- R62 (`20_memory.md` section 4): a read has no side effect on the block, and while idle the same read gives the same
value again; reading `STATUS` does not clear `DONE` or `ERR`. -/
def Obligations.ReadsAreIdempotent : Prop :=
  (∀ (s : State) (r : Nat) (rest : List HostMove), s.status.busy = false → r ≤ 4 →
    s.pending = .rd r :: .rd r :: rest → ∃ v, Host.Core.run core 2 s = .next
      { s with pending := rest, replies := .register r v :: .register r v :: s.replies }) ∧
  (∀ (s : State) (i : Nat) (v : Byte) (rest : List HostMove), s.status.busy = false → i < Config.capOut →
    Memory.read s.obuf i = some v → s.pending = .rdb i :: .rdb i :: rest →
    Host.Core.run core 2 s = .next
      { s with pending := rest, replies := .element i v :: .element i v :: s.replies }) ∧
  ∀ (s t : State) (m : HostMove) (rest : List HostMove), s.pending = m :: rest →
    (∃ n, m = .rd n ∨ m = .rdb n) → step s = .next t → SameBlock s t

/-- R95 (`30_encoding.md` section 6): `WAIT` reads `STATUS` until `DONE` is set, and between two reads the sequencer has
a turn (R246; that it has exactly one is the model's choice, log 2); `READOUT` reads `OUT_LEN` and then that many
elements, with no turn of the sequencer between (the model's choice, log 2; in the state named here, an idle one, the
sequencer has no step). -/
def Obligations.WaitPollsUntilDone : Prop :=
  (∀ (s : State) (rest : List HostMove), s.pending = .wait :: rest → s.status.done = true →
    step s = .next
      { s with
        pending := rest, replies := .register 1 ((statusWord s.status).setWidth Config.olenW) :: s.replies }) ∧
  (∀ (s : State) (rest : List HostMove), s.pending = .wait :: rest → s.status.done = false →
    step s = .next
      { s with
        pending := .letRun :: .wait :: rest,
        replies := .register 1 ((statusWord s.status).setWidth Config.olenW) :: s.replies }) ∧
  ∀ (s : State) (rest : List HostMove), s.pending = .readout :: rest → s.status.busy = false →
    step s = .next
      { s with
        pending := (List.range s.outLen.toNat).map .rdb ++ rest,
        replies := .register 3 s.outLen :: s.replies }

/-- R244, R236 to R241: a host that keeps its duties is answered. In a state that meets the invariant, with the input of a
running command loaded, a move that keeps the duties is neither refused nor faults, and no unspecified value is read. -/
def Obligations.DutyKeepingHostIsAnswered : Prop :=
  ∀ (s : State) (m : HostMove) (rest : List HostMove), BlockInv s → (s.phase ≠ .idle → Loaded s) →
    s.pending = m :: rest → keepsDuties s m = true → ∃ t, step s = .next t ∧ t.draws = s.draws

/-! ## The tables and the arithmetic unit -/

/-- The tables are a bijection (`40_tables.md` section 4, which the spec derives from R102 and R105): 45 valid codes, and
the two lookups are inverse. -/
def Obligations.AlphabetIsABijection : Prop :=
  (∀ i : Digit, indexOf (charAt i) = { valid := true, idx := BitVec.ofNat 6 i.val }) ∧
  (∀ c : Byte, (indexOf c).valid = true →
    ∃ i : Digit, (indexOf c).idx = BitVec.ofNat 6 i.val ∧ charAt i = c) ∧
  (∀ c : Byte, (indexOf c).valid = false → (indexOf c).idx = 0) ∧
  ((List.range 256).filter (fun n => (indexOf (BitVec.ofNat 8 n)).valid)).length = 45

/-- R101, in the codes of R102 (the ASCII codes; the spec takes them from general knowledge, G1): ten digits, 26 letters,
nine symbols, in that order. -/
def Obligations.AlphabetOrder : Prop :=
  (∀ i : Digit, i.val ≤ 9 → (charAt i).toNat = 0x30 + i.val) ∧
  (∀ i : Digit, 10 ≤ i.val → i.val ≤ 35 → (charAt i).toNat = 0x41 + (i.val - 10)) ∧
  [36, 37, 38, 39, 40, 41, 42, 43, 44].map (fun n => charAt (Fin.ofNat 45 n)) =
    [0x20, 0x24, 0x25, 0x2A, 0x2B, 0x2D, 0x2E, 0x2F, 0x3A] ∧
  ∀ i : Digit, (charAt i).toNat < 0x80

/-- The inverse laws of the arithmetic unit (`41_arithmetic.md` section 4, which the spec derives), (a) to (e). -/
def Obligations.DigitsAndMacAreInverse : Prop :=
  (∀ value, value ≤ 65535 →
    mac3 (BitVec.ofNat 6 (digits3 value).1.val) (BitVec.ofNat 6 (digits3 value).2.1.val)
      (BitVec.ofNat 6 (digits3 value).2.2.val) = value) ∧
  (∀ d0 d1 d2 : Digit,
    mac3 (BitVec.ofNat 6 d0.val) (BitVec.ofNat 6 d1.val) (BitVec.ofNat 6 d2.val) ≤ 65535 →
    digits3 (mac3 (BitVec.ofNat 6 d0.val) (BitVec.ofNat 6 d1.val) (BitVec.ofNat 6 d2.val)) = (d0, d1, d2)) ∧
  (∀ b : Byte,
    mac2 (BitVec.ofNat 6 (digits2 b).1.val) (BitVec.ofNat 6 (digits2 b).2.val) = b.toNat) ∧
  (∀ d0 d1 : Digit, mac2 (BitVec.ofNat 6 d0.val) (BitVec.ofNat 6 d1.val) ≤ 255 →
    digits2 (BitVec.ofNat 8 (mac2 (BitVec.ofNat 6 d0.val) (BitVec.ofNat 6 d1.val))) = (d0, d1)) ∧
  ∀ b0 b1 : Byte, split16 (pack16 b0 b1) = (b0, b1)

/-- R130, R131: an out-of-range run or tail keeps its low bits: the stored bytes are bits 15:8 and 7:0 of the value, and
equal those of the value less 65536; a tail keeps its low 8 bits. -/
def Obligations.OutOfRangeRunsAreTruncated : Prop :=
  (∀ val, val ≤ 91124 →
    (split16 val).1.toNat = val / 256 % 256 ∧ (split16 val).2.toNat = val % 256) ∧
  (∀ val, 65535 < val → val ≤ 91124 → split16 val = split16 (val - 65536)) ∧
  ∀ t, t ≤ 2024 → (trunc8 t).toNat = t % 256

/-! ## The function level -/

/-- R141, R147: the characters of each chunk stand where the chunk's index says, and depend on that chunk only. -/
def Obligations.EncodedGroupsStandInInputOrder : Prop :=
  ∀ (bs : List Byte) (k : Nat),
    (∀ b0 b1, bs[2 * k]? = some b0 → bs[2 * k + 1]? = some b1 →
      (encodeBytes bs)[3 * k]? = some (charAt (Fin.ofNat 45 ((b0.toNat * 256 + b1.toNat) % 45))) ∧
      (encodeBytes bs)[3 * k + 1]? =
        some (charAt (Fin.ofNat 45 ((b0.toNat * 256 + b1.toNat) / 45 % 45))) ∧
      (encodeBytes bs)[3 * k + 2]? =
        some (charAt (Fin.ofNat 45 ((b0.toNat * 256 + b1.toNat) / 2025 % 45)))) ∧
    (∀ b, bs[2 * k]? = some b → bs.length = 2 * k + 1 →
      (encodeBytes bs)[3 * k]? = some (charAt (Fin.ofNat 45 (b.toNat % 45))) ∧
      (encodeBytes bs)[3 * k + 1]? = some (charAt (Fin.ofNat 45 (b.toNat / 45 % 45))) ∧
      (encodeBytes bs)[3 * k + 2]? = none)

/-- R146: the length law of encode, at the function level and at completion. -/
def Obligations.EncodeLengthLaw : Prop :=
  (∀ bs : List Byte,
    (encodeBytes bs).length = 3 * (bs.length / 2) + (if bs.length % 2 = 1 then 2 else 0) ∧
    (encodeBytes bs).length % 3 ≠ 1 ∧
    (1 ≤ bs.length → (encodeBytes bs).length ≤ 2 * bs.length)) ∧
  ∀ s : State, SequencerInv s → s.phase = .encRun → remaining s = 0 →
    s.odx = s.outLen ∧
    s.outLen.toNat = 3 * (s.inLen.toNat / 2) + (if s.inLen.toNat % 2 = 1 then 2 else 0)

/-- The length law of decode (`43_decode.md` section 3, which the spec derives). -/
def Obligations.DecodeLengthLaw : Prop :=
  (∀ (str : List Byte) (ign : Bool) (r : List Byte), decodeString str ign = .bytes r →
    r.length = 2 * (str.length / 3) + (if str.length % 3 = 2 then 1 else 0) ∧ r.length ≤ str.length) ∧
  ∀ s : State, SequencerInv s → s.phase = .decEmit → remaining s = 0 →
    s.odx = s.outLen ∧
    s.outLen.toNat = 2 * (s.inLen.toNat / 3) + (if s.inLen.toNat % 3 = 2 then 1 else 0)

/-- R148: every character that encode produces is of the alphabet, and every element that ENC_PAIR or ENC_TAIL writes is
an entry of `CHAR_ROM`. -/
def Obligations.EncodeStaysInTheAlphabet : Prop :=
  (∀ (bs : List Byte) (c : Byte), c ∈ encodeBytes bs → ∃ i : Digit, c = charAt i) ∧
  ∀ (i : Instr) (s t : State), i = .encPair ∨ i = .encTail → exec i s = .next t →
    ∀ a, Memory.read t.obuf a = Memory.read s.obuf a ∨ ∃ d : Digit, Memory.read t.obuf a = some (charAt d)

/-- The round trip (`43_decode.md` section 4, which the spec derives; B45's own testable property): decoding an encoded
buffer gives it back, under either policy. -/
def Obligations.DecodeInvertsEncode : Prop :=
  ∀ (bs : List Byte) (ign : Bool), decodeString (encodeBytes bs) ign = .bytes bs

/-- `ENCODE` is injective (`42_encode.md` section 4) and `DECODE` is not (`43_decode.md` section 4), both derived by the
spec. -/
def Obligations.EncodeIsInjectiveAndDecodeIsNot : Prop :=
  (∀ xs ys : List Byte, encodeBytes xs = encodeBytes ys → xs = ys) ∧
  ∃ str str' : List Byte, str ≠ str' ∧ ∃ r, decodeString str false = .bytes r ∧ decodeString str' false = .bytes r

/-- The placeholder zero (`43_decode.md` section 4, which the spec derives): under `ignoreErrors` a character outside the
alphabet acts as the character `0` at its position. -/
def Obligations.IgnoredCharacterActsAsZero : Prop :=
  ∀ str : List Byte, str.length % 3 ≠ 1 →
    decodeString str true =
      decodeString (str.map (fun c => if (indexOf c).valid then c else 0x30)) false

/-- R203, R204, R205, R210 at the function level: which error a decode reports, exactly. -/
def Obligations.DecodeReportsTheFirstError : Prop :=
  (∀ str : List Byte, decodeString str false = .invalidLength ↔ str.length % 3 = 1) ∧
  (∀ (str : List Byte) (p : Nat), decodeString str false = .invalidCharacter p ↔
    str.length % 3 ≠ 1 ∧ (∃ c, str[p]? = some c ∧ (indexOf c).valid = false) ∧
    ∀ q c, q < p → str[q]? = some c → (indexOf c).valid = true) ∧
  ∀ str : List Byte, ∃ r, decodeString str true = .bytes r

/-! ## The two levels agree -/

/-- The agreement for `ENCODE` (`42_encode.md` section 4, which the spec derives): an accepted `ENCODE` and all its steps
compute `ENCODE(B)`, in `n/2 + n%2 + 1` steps after acceptance and in no fewer. -/
def Obligations.EncodeCommandComputesEncode : Prop :=
  ∀ (s : State) (bs : List Byte), s.status.busy = false → s.pending = [.wr 0 0x01] →
    s.inLen.toNat = bs.length → (∀ i b, bs[i]? = some b → Memory.read s.ibuf i = some b) →
    (∀ k, k < bs.length / 2 + bs.length % 2 + 1 →
      ∃ u : State, Host.Core.run core (1 + k) s = .next u ∧ u.status.busy = true) ∧
    ∃ t : State, Host.Core.run core (1 + (bs.length / 2 + bs.length % 2 + 1)) s = .next t ∧
      statusWord t.status = 0x02 ∧ t.errPos = 0 ∧ t.phase = .idle ∧
      t.outLen.toNat = (encodeBytes bs).length ∧
      (∀ i c, (encodeBytes bs)[i]? = some c → Memory.read t.obuf i = some c) ∧
      (∀ i, (encodeBytes bs).length ≤ i → Memory.read t.obuf i = Memory.read s.obuf i) ∧
      t.ibuf = s.ibuf ∧ t.inLen = s.inLen ∧ t.dbuf = s.dbuf ∧ t.pending = []

/-- The agreement for `DECODE` and `DECODE.IGN` (`43_decode.md` section 4, which the spec derives): an accepted decode and
all its steps, at most `1 + n + n/3 + 1 + 1` of them, compute `DECODE(S, ign)`. (An idle block has no step, so the state
after that many is the final one.) -/
def Obligations.DecodeCommandComputesDecode : Prop :=
  ∀ (s : State) (str : List Byte) (ign : Bool), s.status.busy = false →
    s.pending = [.wr 0 (if ign then 0x03 else 0x02)] →
    s.inLen.toNat = str.length → (∀ i c, str[i]? = some c → Memory.read s.ibuf i = some c) →
    ∃ t : State,
      Host.Core.run core (1 + (1 + str.length + str.length / 3 + 1 + 1)) s = .next t ∧
      t.phase = .idle ∧ t.ibuf = s.ibuf ∧ t.inLen = s.inLen ∧
      match decodeString str ign with
      | .bytes r =>
        statusWord t.status = 0x02 ∧ t.errPos = 0 ∧ t.outLen.toNat = r.length ∧
        (∀ i b, r[i]? = some b → Memory.read t.obuf i = some b) ∧
        ∀ i, r.length ≤ i → Memory.read t.obuf i = Memory.read s.obuf i
      | .invalidLength =>
        statusWord t.status = 0x06 ∧ t.errPos = 0 ∧ t.outLen = 0 ∧ t.obuf = s.obuf
      | .invalidCharacter p =>
        statusWord t.status = 0x0A ∧ t.errPos.toNat = p ∧ t.outLen = 0 ∧ t.obuf = s.obuf

/-- Statelessness (`00_scope.md` section 7, which the spec derives): the result of a command depends only on the command,
on `IN_LEN` and on `IBUF[0 .. IN_LEN-1]`. -/
def Obligations.ResultDependsOnlyOnTheInput : Prop :=
  ∀ (s s' : State) (v : Nat), v = 1 ∨ v = 2 ∨ v = 3 →
    s.status.busy = false → s'.status.busy = false → s.pending = [.wr 0 v] → s'.pending = [.wr 0 v] →
    s.inLen = s'.inLen → Loaded s →
    (∀ i, i < s.inLen.toNat → Memory.read s.ibuf i = Memory.read s'.ibuf i) →
    ∃ t t' : State,
      Host.Core.run core (1 + (1 + s.inLen.toNat + s.inLen.toNat / 3 + 1 + 1)) s = .next t ∧
      Host.Core.run core (1 + (1 + s.inLen.toNat + s.inLen.toNat / 3 + 1 + 1)) s' = .next t' ∧
      t.status = t'.status ∧ t.status.done = true ∧ t.errPos = t'.errPos ∧ t.outLen = t'.outLen ∧
      ∀ i, i < t.outLen.toNat → Memory.read t.obuf i = Memory.read t'.obuf i

/-! ## Invariants that every step keeps -/

/-- The invariants of `STATUS` (`10_state.md` section 3, which the spec derives) are kept by every step, whatever move of
the host or step of the sequencer it is. -/
def Obligations.StepKeepsTheStatusInvariant : Prop :=
  ∀ s t : State, StatusInv s → step s = .next t → StatusInv t

/-- Every step keeps the buffers in canonical form and within their indices (R34, R35, R36). -/
def Obligations.StepKeepsTheMemoryInvariant : Prop :=
  ∀ s t : State, MemoryInv s → step s = .next t → MemoryInv t

/-- Every step keeps the sequencer's invariant: `IDX` and `ODX` at a chunk, the length law, the digits in `DBUF`, the
result in `OBUF` (R23, R35, R36, R88, R146, R171). -/
def Obligations.StepKeepsTheSequencerInvariant : Prop :=
  ∀ s t : State, StatusInv s → SequencerInv s → step s = .next t → SequencerInv t

/-- R36 (`10_state.md` section 4): in a state that meets the sequencer's invariant no step reads an element of `DBUF` that
the same command has not written, and with a loaded input the sequencer's step always answers a next state. That the one
step left, a read of an `IBUF` element that holds no value, is a fault is the model's choice, log 11 (U3). -/
def Obligations.LoadedSequencerNeverStops : Prop :=
  (∀ s : State, SequencerInv s → s.pending = [] → Loaded s → ∃ t, step s = .next t) ∧
  ∀ (s : State) (b : BufferName) (i : Nat), SequencerInv s → s.pending = [] →
    step s = .fault (.noValue b i) → b = .ibuf ∧ i < s.inLen.toNat ∧ Memory.read s.ibuf i = none

/-- Every command completes (`30_encoding.md` section 3, which the spec derives; with the fairness of R246, here an empty
list of host moves, log 2): from any state of a running command with a loaded input, `DONE = 1` is reached within
`n + n/3 + 3` steps. -/
def Obligations.EveryCommandCompletes : Prop :=
  ∀ s : State, StatusInv s → SequencerInv s → s.status.busy = true → s.pending = [] → Loaded s →
    ∃ t : State,
      Host.Core.run core (s.inLen.toNat + s.inLen.toNat / 3 + 3) s = .next t ∧
      t.status.done = true ∧ t.status.busy = false ∧ t.phase = .idle

/-! ## Loading the input -/

/-- `LOAD` (R95, `30_encoding.md` section 6): while idle its moves put the values into `IBUF` from index 0 on and their
number into `IN_LEN`, and change nothing else. (That the moves stand in `pending` is the model's choice, log 2; `CAP_IN`
follows `LEN_W` = 16, log 1.) -/
def Obligations.LoadFillsTheInput : Prop :=
  ∀ (s : State) (xs : List Byte) (rest : List HostMove), s.status.busy = false → xs.length ≤ Config.capIn →
    s.pending = load xs ++ rest →
    ∃ (n : LenWord) (m : Buffer 8), n.toNat = xs.length ∧
      (∀ i x, xs[i]? = some x → Memory.read m i = some x) ∧
      (∀ i, xs.length ≤ i → Memory.read m i = Memory.read s.ibuf i) ∧
      Host.Core.run core (xs.length + 1) s = .next { s with pending := rest, inLen := n, ibuf := m }

/-- `LOADS` (R95, `30_encoding.md` section 6): a text of ASCII characters has an expansion, and it is `LOAD` of one code for
each character in order: the `CHAR_ROM` entry for a character of the alphabet, and always the ASCII code (which the spec
takes from general knowledge, G1; log 10). -/
def Obligations.LoadsGivesTheCodesOfTheText : Prop :=
  (∀ text : String, (∀ c, c ∈ text.toList → c.toNat < 128) → ∃ ms, loads text = some ms) ∧
  (∀ (text : String) (ms : List HostMove), loads text = some ms →
    ∃ xs : List Byte, ms = load xs ∧ xs.length = text.toList.length ∧
      ∀ (i : Nat) (c : Char), text.toList[i]? = some c → ∃ x : Byte, xs[i]? = some x ∧ x.toNat = c.toNat) ∧
  ∀ (i : Digit) (c : Char), alphabet[i.val]? = some c → charCode c = some (charAt i)
end

