-- ==== Sys2Proof/Laws/Width.lean ====
section
/-! SUPPORT. The registers whose width is the parameter `LEN_W`: their bounds, and the advances that do not wrap (R23,
R59). Only `two_pow_lenW` and `two_pow_olenW_eq` name the value of the parameter. -/

namespace Sys2Proof

/-- `OLEN_W` is one bit wider than `LEN_W` (R8). -/
theorem two_pow_olenW : 2 ^ Config.olenW = 2 * 2 ^ Config.lenW := by
  rw [Nat.pow_succ, Nat.mul_comm]

theorem two_le_two_pow_lenW : 2 ≤ 2 ^ Config.lenW := by decide

/-- The default of R8, as a numeral for `omega`. -/
theorem two_pow_lenW : 2 ^ Config.lenW = 65536 := rfl

theorem two_pow_olenW_eq : 2 ^ Config.olenW = 131072 := rfl

theorem lenWord_lt (x : LenWord) : x.toNat < 2 ^ Config.lenW := x.isLt

theorem outWord_lt (x : OutWord) : x.toNat < 2 ^ Config.olenW := x.isLt

/-- An index that advances without passing another does not wrap (R23: `IDX <= IN_LEN`). -/
theorem lenWord_add (x y : LenWord) (k : Nat) (h : x.toNat + k ≤ y.toNat) :
    (x + BitVec.ofNat Config.lenW k).toNat = x.toNat + k := by
  have := lenWord_lt y
  rw [BitVec.toNat_add, BitVec.toNat_ofNat, Nat.add_mod_mod]
  exact Nat.mod_eq_of_lt (by omega)

theorem lenWord_add_one (x y : LenWord) (h : x.toNat + 1 ≤ y.toNat) : (x + 1).toNat = x.toNat + 1 :=
  lenWord_add x y 1 h

theorem lenWord_add_two (x y : LenWord) (h : x.toNat + 2 ≤ y.toNat) : (x + 2).toNat = x.toNat + 2 :=
  lenWord_add x y 2 h

theorem lenWord_add_three (x y : LenWord) (h : x.toNat + 3 ≤ y.toNat) : (x + 3).toNat = x.toNat + 3 :=
  lenWord_add x y 3 h

/-- An output index that stays inside `OBUF` does not wrap. -/
theorem outWord_add (x : OutWord) (k : Nat) (h : x.toNat + k < 2 ^ Config.olenW) :
    (x + BitVec.ofNat Config.olenW k).toNat = x.toNat + k := by
  rw [BitVec.toNat_add, BitVec.toNat_ofNat, Nat.add_mod_mod]
  exact Nat.mod_eq_of_lt h

theorem outWord_add_one (x : OutWord) (h : x.toNat + 1 < 2 ^ Config.olenW) : (x + 1).toNat = x.toNat + 1 :=
  outWord_add x 1 h

theorem outWord_add_two (x : OutWord) (h : x.toNat + 2 < 2 ^ Config.olenW) : (x + 2).toNat = x.toNat + 2 :=
  outWord_add x 2 h

theorem outWord_add_three (x : OutWord) (h : x.toNat + 3 < 2 ^ Config.olenW) : (x + 3).toNat = x.toNat + 3 :=
  outWord_add x 3 h

/-- Adding a small constant changes a register, wrapping or not: the addresses of one step differ (R59). -/
theorem outWord_add_ne (x : OutWord) (j k : Nat) (hj : j < k) (hk : k < 2 ^ Config.olenW) :
    (x + BitVec.ofNat Config.olenW j).toNat ≠ (x + BitVec.ofNat Config.olenW k).toNat := by
  intro h
  have h' := BitVec.eq_of_toNat_eq h
  rw [BitVec.add_right_inj] at h'
  have e := congrArg BitVec.toNat h'
  rw [BitVec.toNat_ofNat, BitVec.toNat_ofNat, Nat.mod_eq_of_lt (by omega), Nat.mod_eq_of_lt hk] at e
  omega

/-- The product of the length laws fits: an output length is below `2^OLEN_W` (R8, R146). -/
theorem outLen_fits (n : Nat) (h : n < 2 * 2 ^ Config.lenW) : (BitVec.ofNat Config.olenW n).toNat = n := by
  rw [BitVec.toNat_ofNat, two_pow_olenW]
  exact Nat.mod_eq_of_lt h

end Sys2Proof
end

