-- ==== Sys2Proof/Laws/Arith.lean ====
section
/-! SUPPORT. The arithmetic unit and the function level in closed form. -/

namespace Sys2Proof.Machine

/-- A digit fits a `DBUF` element. -/
theorem digitWord_toNat (d : Digit) : (BitVec.ofNat 6 d.val).toNat = d.val := by
  have := d.isLt
  rw [BitVec.toNat_ofNat]
  exact Nat.mod_eq_of_lt (by omega)

theorem narrow_mod (x : Nat) : Config.narrow x = BitVec.ofNat 8 (x % 256) := by
  apply BitVec.eq_of_toNat_eq
  simp [Config.narrow]

/-- `DIGITS3` by quotients and remainders (R124). -/
theorem digits3_eq (v : Nat) :
    digits3 v = (Fin.ofNat 45 (v % 45), Fin.ofNat 45 (v / 45 % 45), Fin.ofNat 45 (v / 2025 % 45)) := by
  simp only [digits3, divmod45, digitOf, Config.base, Prod.mk.injEq]
  refine ⟨?_, ?_, ?_⟩ <;> ext <;> simp [Fin.ofNat, Nat.div_div_eq_div_mul]

/-- `DIGITS2` by quotient and remainder: the two cases of R126 agree. -/
theorem digits2_eq (b : Byte) : digits2 b = (Fin.ofNat 45 (b.toNat % 45), Fin.ofNat 45 (b.toNat / 45 % 45)) := by
  simp only [digits2, digitOf, Config.base, Prod.mk.injEq]
  refine ⟨by ext; simp [Fin.ofNat], ?_⟩
  split
  · ext; simp [Fin.ofNat]; omega
  · ext; simp [Fin.ofNat]

theorem encodeChunk_eq (b0 b1 : Byte) :
    encodeChunk b0 b1 =
      [charAt (Fin.ofNat 45 (pack16 b0 b1 % 45)), charAt (Fin.ofNat 45 (pack16 b0 b1 / 45 % 45)),
        charAt (Fin.ofNat 45 (pack16 b0 b1 / 2025 % 45))] := by
  simp only [encodeChunk, digits3_eq]

theorem encodeLast_eq (b : Byte) :
    encodeLast b = [charAt (Fin.ofNat 45 (b.toNat % 45)), charAt (Fin.ofNat 45 (b.toNat / 45 % 45))] := by
  simp only [encodeLast, digits2_eq]

/-- An output length fits `OUT_LEN` (R20, R59). -/
theorem encodeLen_fits (x : LenWord) :
    (BitVec.ofNat Config.olenW (encodeLen x.toNat)).toNat = encodeLen x.toNat := by
  have := lenWord_lt x
  have := two_le_two_pow_lenW
  exact outLen_fits _ (by unfold encodeLen; omega)

theorem decodeLen_fits (x : LenWord) :
    (BitVec.ofNat Config.olenW (decodeLen x.toNat)).toNat = decodeLen x.toNat := by
  have := lenWord_lt x
  exact outLen_fits _ (by unfold decodeLen; split <;> omega)

theorem emitBytes_length (ds : List DigitWord) : (emitBytes ds).length = decodeLen ds.length := by
  induction ds using emitBytes.induct with
  | case1 => rfl
  | case2 => simp [emitBytes, decodeLen]
  | case3 => simp [emitBytes, decodeLen]
  | case4 d0 d1 d2 r _ _ _ ih =>
    simp only [emitBytes, List.length_cons, ih]
    unfold decodeLen
    split <;> split <;> omega

/-- Translation keeps the length: one digit a character. -/
theorem translateString_length (ign : Bool) (i : Nat) (str : List Byte) (ds : List DigitWord)
    (h : translateString ign i str = .ok ds) : ds.length = str.length := by
  induction str generalizing i ds with
  | nil => simp [translateString] at h; simp [← h]
  | cons c r ih =>
    simp only [translateString] at h
    split at h
    · cases h
    · split at h
      · cases h
      · rename_i ds' hd
        cases h
        simp [ih _ _ hd]

end Sys2Proof.Machine
end

