-- ==== Sys2Proof/Laws/Memory.lean ====
section
/-! SUPPORT. The laws of a buffer: read after write, and that every operation keeps the canonical form. -/

namespace Sys2Proof.Machine

variable {w : Nat}

@[simp] theorem Memory.read_nil (i : Nat) : Memory.read ([] : Buffer w) i = none := rfl

theorem Memory.read_cons (j : Nat) (u : BitVec w) (m : Buffer w) (i : Nat) :
    Memory.read ((j, u) :: m) i = if i = j then some u else Memory.read m i := rfl

/-- Reading back the element just written gives the value written. -/
@[simp] theorem Memory.read_write_same (m : Buffer w) (i : Nat) (v : BitVec w) :
    Memory.read (Memory.write m i v) i = some v := by
  induction m with
  | nil => simp [Memory.write, Memory.read]
  | cons c rest ih =>
    obtain ⟨j, u⟩ := c
    unfold Memory.write
    split
    · simp [Memory.read]
    · split
      · simp [Memory.read]
      · rename_i h
        simp [Memory.read, h, ih]

/-- A write leaves every other element alone. -/
theorem Memory.read_write_other (m : Buffer w) (i a : Nat) (v : BitVec w) (h : a ≠ i) :
    Memory.read (Memory.write m i v) a = Memory.read m a := by
  induction m with
  | nil => simp [Memory.write, Memory.read, h]
  | cons c rest ih =>
    obtain ⟨j, u⟩ := c
    unfold Memory.write
    split
    · simp [Memory.read, h]
    · split
      · rename_i hij
        subst hij
        simp [Memory.read, h]
      · simp [Memory.read, ih]

theorem Memory.read_write (m : Buffer w) (i a : Nat) (v : BitVec w) :
    Memory.read (Memory.write m i v) a = if a = i then some v else Memory.read m a := by
  split
  · rename_i h; subst h; simp
  · rename_i h; exact Memory.read_write_other m i a v h

theorem Memory.read_append (m n : Buffer w) (i : Nat) :
    Memory.read (m ++ n) i = (Memory.read m i).or (Memory.read n i) := by
  induction m with
  | nil => simp
  | cons c rest ih =>
    obtain ⟨j, u⟩ := c
    simp only [List.cons_append, Memory.read_cons]
    split <;> simp [ih]

theorem Memory.read_zeros (n i : Nat) :
    Memory.read ((List.range n).map (fun k => (k, (0 : BitVec w)))) i = if i < n then some 0 else none := by
  induction n with
  | zero => simp
  | succ n ih =>
    rw [List.range_succ, List.map_append, Memory.read_append, ih]
    simp only [List.map_cons, List.map_nil, Memory.read_cons, Memory.read_nil]
    split
    · rename_i h; simp [Nat.lt_succ_of_lt h]
    · rename_i h
      by_cases hi : i = n
      · simp [hi]
      · have : ¬ i < n + 1 := by omega
        simp [hi, this]

theorem Memory.read_filter_ge (m : Buffer w) (n i : Nat) (h : n ≤ i) :
    Memory.read (m.filter (fun c => decide (n ≤ c.1))) i = Memory.read m i := by
  induction m with
  | nil => rfl
  | cons c rest ih =>
    obtain ⟨j, u⟩ := c
    rw [List.filter_cons]
    split
    · simp only [Memory.read_cons, ih]
    · rename_i hj
      have : i ≠ j := by simp at hj; omega
      simp [Memory.read_cons, this, ih]

/-- `zeroFill` clears the elements below `n` and keeps the others (R165). -/
theorem Memory.read_zeroFill (m : Buffer w) (n i : Nat) :
    Memory.read (Memory.zeroFill m n) i = if i < n then some 0 else Memory.read m i := by
  unfold Memory.zeroFill
  rw [Memory.read_append, Memory.read_zeros]
  split
  · rfl
  · rename_i h
    simp [Memory.read_filter_ge m n i (by omega)]

/-! The canonical form. -/

theorem Memory.rising_mono {lo lo' cap : Nat} (h : lo ≤ lo') (m : Buffer w)
    (hm : Memory.rising lo' cap m = true) : Memory.rising lo cap m = true := by
  cases m with
  | nil => rfl
  | cons c rest =>
    obtain ⟨j, u⟩ := c
    simp only [Memory.rising, Bool.and_eq_true, decide_eq_true_eq] at hm ⊢
    exact ⟨⟨by omega, hm.1.2⟩, hm.2⟩

theorem Memory.rising_write (m : Buffer w) (lo cap i : Nat) (v : BitVec w)
    (hm : Memory.rising lo cap m = true) (hlo : lo ≤ i) (hi : i < cap) :
    Memory.rising lo cap (Memory.write m i v) = true := by
  induction m generalizing lo with
  | nil => simp [Memory.write, Memory.rising, hlo, hi]
  | cons c rest ih =>
    obtain ⟨j, u⟩ := c
    simp only [Memory.rising, Bool.and_eq_true, decide_eq_true_eq] at hm
    unfold Memory.write
    split
    · rename_i hij
      simp only [Memory.rising, Bool.and_eq_true, decide_eq_true_eq]
      exact ⟨⟨hlo, hi⟩, ⟨by omega, hm.1.2⟩, hm.2⟩
    · split
      · rename_i hij
        subst hij
        simp only [Memory.rising, Bool.and_eq_true, decide_eq_true_eq]
        exact ⟨⟨hlo, hi⟩, hm.2⟩
      · simp only [Memory.rising, Bool.and_eq_true, decide_eq_true_eq]
        exact ⟨hm.1, ih _ hm.2 (by omega)⟩

/-- A write inside the buffer keeps the canonical form. -/
theorem Memory.wf_write (m : Buffer w) (cap i : Nat) (v : BitVec w)
    (hm : Memory.wf cap m = true) (hi : i < cap) : Memory.wf cap (Memory.write m i v) = true :=
  Memory.rising_write m 0 cap i v hm (Nat.zero_le _) hi

theorem Memory.rising_filter (m : Buffer w) (lo cap n : Nat) (hm : Memory.rising lo cap m = true) :
    Memory.rising (max lo n) cap (m.filter (fun c => decide (n ≤ c.1))) = true := by
  induction m generalizing lo with
  | nil => rfl
  | cons c rest ih =>
    obtain ⟨j, u⟩ := c
    simp only [Memory.rising, Bool.and_eq_true, decide_eq_true_eq] at hm
    have hrest := ih (j + 1) hm.2
    rw [List.filter_cons]
    split
    · rename_i hj
      simp only [decide_eq_true_eq] at hj
      simp only [Memory.rising, Bool.and_eq_true, decide_eq_true_eq]
      exact ⟨⟨by omega, hm.1.2⟩, Memory.rising_mono (by omega) _ hrest⟩
    · exact Memory.rising_mono (by omega) _ hrest

theorem Memory.rising_zeros (k lo n cap : Nat) (rest : Buffer w) (hk : lo + k = n) (hn : n ≤ cap)
    (hr : Memory.rising n cap rest = true) :
    Memory.rising lo cap ((List.range' lo k).map (fun i => (i, (0 : BitVec w))) ++ rest) = true := by
  induction k generalizing lo with
  | zero => subst hk; simpa using hr
  | succ k ih =>
    simp only [List.range'_succ, List.map_cons, List.cons_append, Memory.rising, Bool.and_eq_true,
      decide_eq_true_eq]
    exact ⟨⟨le_refl _, by omega⟩, ih (lo + 1) (by omega)⟩

/-- `zeroFill` inside the buffer keeps the canonical form. -/
theorem Memory.wf_zeroFill (m : Buffer w) (cap n : Nat) (hm : Memory.wf cap m = true) (hn : n ≤ cap) :
    Memory.wf cap (Memory.zeroFill m n) = true := by
  unfold Memory.wf Memory.zeroFill
  rw [List.range_eq_range']
  refine Memory.rising_zeros n 0 n cap _ (by omega) hn ?_
  exact Memory.rising_mono (by omega) _ (Memory.rising_filter m 0 cap n hm)

theorem Memory.read_rising (m : Buffer w) (lo cap i : Nat) (v : BitVec w)
    (hm : Memory.rising lo cap m = true) (hr : Memory.read m i = some v) : i < cap := by
  induction m generalizing lo with
  | nil => simp at hr
  | cons c rest ih =>
    obtain ⟨j, u⟩ := c
    simp only [Memory.rising, Bool.and_eq_true, decide_eq_true_eq] at hm
    rw [Memory.read_cons] at hr
    split at hr
    · rename_i h; omega
    · exact ih _ hm.2 hr

/-- In canonical form only the indices of the buffer hold values. -/
theorem Memory.read_wf_lt (m : Buffer w) (cap i : Nat) (v : BitVec w)
    (hm : Memory.wf cap m = true) (hr : Memory.read m i = some v) : i < cap :=
  Memory.read_rising m 0 cap i v hm hr

end Sys2Proof.Machine
end

