-- ==== Sys2Proof/Laws/Operands.lean ====
section
/-! SUPPORT. What reading operands can do, said once: the operands are the elements, or the fault names the first element
that holds no value. -/

namespace Sys2Proof.Machine

/-- `withOperands` answers a next state exactly when the operands were read. -/
theorem withOperands_next {α : Type} (x : Except Fault α) (k : α → State) (t : State) :
    withOperands x k = .next t ↔ ∃ a, x = .ok a ∧ t = k a := by
  cases x <;> simp [withOperands, eq_comm]

/-- `withOperands` faults exactly when the read does. -/
theorem withOperands_fault {α : Type} (x : Except Fault α) (k : α → State) (f : Fault) :
    withOperands x k = .fault f ↔ x = .error f := by
  cases x <;> simp [withOperands]

/-- `withOperands` never refuses. -/
theorem withOperands_refused {α : Type} (x : Except Fault α) (k : α → State) (r : Refusal) :
    withOperands x k ≠ .refused r := by
  cases x <;> simp [withOperands]

@[simp] theorem withOperands_ok {α : Type} (a : α) (k : α → State) : withOperands (.ok a) k = .next (k a) := rfl

@[simp] theorem withOperands_error {α : Type} (f : Fault) (k : α → State) :
    withOperands (.error f) k = .fault f := rfl

theorem element_ok {w : Nat} (b : BufferName) (m : Buffer w) (i : Nat) (v : BitVec w) :
    element b m i = .ok v ↔ Memory.read m i = some v := by
  unfold element
  cases Memory.read m i <;> simp

theorem element_error {w : Nat} (b : BufferName) (m : Buffer w) (i : Nat) (f : Fault) :
    element b m i = .error f ↔ Memory.read m i = none ∧ f = .noValue b i := by
  unfold element
  cases Memory.read m i <;> simp [eq_comm]

theorem element_of_read {w : Nat} (b : BufferName) {m : Buffer w} {i : Nat} {v : BitVec w}
    (h : Memory.read m i = some v) : element b m i = .ok v := (element_ok b m i v).2 h

theorem element_of_none {w : Nat} (b : BufferName) {m : Buffer w} {i : Nat}
    (h : Memory.read m i = none) : element b m i = .error (.noValue b i) :=
  (element_error b m i _).2 ⟨h, rfl⟩

theorem ibufPair_ok (s : State) (b0 b1 : Byte) :
    ibufPair s = .ok (b0, b1) ↔ ibufAt s 0 = .ok b0 ∧ ibufAt s 1 = .ok b1 := by
  unfold ibufPair
  cases ibufAt s 0 <;> cases ibufAt s 1 <;> simp

theorem dbufPair_ok (s : State) (d0 d1 : DigitWord) :
    dbufPair s = .ok (d0, d1) ↔ dbufAt s 0 = .ok d0 ∧ dbufAt s 1 = .ok d1 := by
  unfold dbufPair
  cases dbufAt s 0 <;> cases dbufAt s 1 <;> simp

theorem dbufTriple_ok (s : State) (d0 d1 d2 : DigitWord) :
    dbufTriple s = .ok (d0, d1, d2) ↔ dbufAt s 0 = .ok d0 ∧ dbufAt s 1 = .ok d1 ∧ dbufAt s 2 = .ok d2 := by
  unfold dbufTriple dbufPair
  cases dbufAt s 0 <;> cases dbufAt s 1 <;> cases dbufAt s 2 <;> simp

end Sys2Proof.Machine
end

