-- ==== Sys2Proof/Laws/State.lean ====
section
/-! SUPPORT. One lemma per field per update, so that no proof unfolds a record update. -/

namespace Sys2Proof.Machine

/-! `accept` -/

@[simp] theorem accept_status (d g : Bool) (s : State) : (accept d g s).status = Status.accepted := rfl
@[simp] theorem accept_inLen (d g : Bool) (s : State) : (accept d g s).inLen = s.inLen := rfl
@[simp] theorem accept_outLen (d g : Bool) (s : State) : (accept d g s).outLen = 0 := rfl
@[simp] theorem accept_errPos (d g : Bool) (s : State) : (accept d g s).errPos = 0 := rfl
@[simp] theorem accept_opr (d g : Bool) (s : State) : (accept d g s).opr = d := rfl
@[simp] theorem accept_ignr (d g : Bool) (s : State) : (accept d g s).ignr = g := rfl
@[simp] theorem accept_phase (d g : Bool) (s : State) : (accept d g s).phase = s.phase := rfl
@[simp] theorem accept_idx (d g : Bool) (s : State) : (accept d g s).idx = 0 := rfl
@[simp] theorem accept_odx (d g : Bool) (s : State) : (accept d g s).odx = 0 := rfl
@[simp] theorem accept_ibuf (d g : Bool) (s : State) : (accept d g s).ibuf = s.ibuf := rfl
@[simp] theorem accept_obuf (d g : Bool) (s : State) : (accept d g s).obuf = s.obuf := rfl
@[simp] theorem accept_dbuf (d g : Bool) (s : State) : (accept d g s).dbuf = s.dbuf := rfl
@[simp] theorem accept_pending (d g : Bool) (s : State) : (accept d g s).pending = s.pending := rfl
@[simp] theorem accept_replies (d g : Bool) (s : State) : (accept d g s).replies = s.replies := rfl
@[simp] theorem accept_draws (d g : Bool) (s : State) : (accept d g s).draws = s.draws := rfl

/-! `enter` -/

@[simp] theorem enter_status (p : Phase) (n : OutWord) (s : State) : (enter p n s).status = s.status := rfl
@[simp] theorem enter_inLen (p : Phase) (n : OutWord) (s : State) : (enter p n s).inLen = s.inLen := rfl
@[simp] theorem enter_outLen (p : Phase) (n : OutWord) (s : State) : (enter p n s).outLen = n := rfl
@[simp] theorem enter_errPos (p : Phase) (n : OutWord) (s : State) : (enter p n s).errPos = s.errPos := rfl
@[simp] theorem enter_opr (p : Phase) (n : OutWord) (s : State) : (enter p n s).opr = s.opr := rfl
@[simp] theorem enter_ignr (p : Phase) (n : OutWord) (s : State) : (enter p n s).ignr = s.ignr := rfl
@[simp] theorem enter_phase (p : Phase) (n : OutWord) (s : State) : (enter p n s).phase = p := rfl
@[simp] theorem enter_idx (p : Phase) (n : OutWord) (s : State) : (enter p n s).idx = s.idx := rfl
@[simp] theorem enter_odx (p : Phase) (n : OutWord) (s : State) : (enter p n s).odx = s.odx := rfl
@[simp] theorem enter_ibuf (p : Phase) (n : OutWord) (s : State) : (enter p n s).ibuf = s.ibuf := rfl
@[simp] theorem enter_obuf (p : Phase) (n : OutWord) (s : State) : (enter p n s).obuf = s.obuf := rfl
@[simp] theorem enter_dbuf (p : Phase) (n : OutWord) (s : State) : (enter p n s).dbuf = s.dbuf := rfl
@[simp] theorem enter_pending (p : Phase) (n : OutWord) (s : State) : (enter p n s).pending = s.pending := rfl
@[simp] theorem enter_replies (p : Phase) (n : OutWord) (s : State) : (enter p n s).replies = s.replies := rfl
@[simp] theorem enter_draws (p : Phase) (n : OutWord) (s : State) : (enter p n s).draws = s.draws := rfl

/-! `complete` -/

@[simp] theorem complete_status (s : State) : (complete s).status = s.status.completed := rfl
@[simp] theorem complete_inLen (s : State) : (complete s).inLen = s.inLen := rfl
@[simp] theorem complete_outLen (s : State) : (complete s).outLen = s.outLen := rfl
@[simp] theorem complete_errPos (s : State) : (complete s).errPos = s.errPos := rfl
@[simp] theorem complete_opr (s : State) : (complete s).opr = s.opr := rfl
@[simp] theorem complete_ignr (s : State) : (complete s).ignr = s.ignr := rfl
@[simp] theorem complete_phase (s : State) : (complete s).phase = Phase.idle := rfl
@[simp] theorem complete_idx (s : State) : (complete s).idx = s.idx := rfl
@[simp] theorem complete_odx (s : State) : (complete s).odx = s.odx := rfl
@[simp] theorem complete_ibuf (s : State) : (complete s).ibuf = s.ibuf := rfl
@[simp] theorem complete_obuf (s : State) : (complete s).obuf = s.obuf := rfl
@[simp] theorem complete_dbuf (s : State) : (complete s).dbuf = s.dbuf := rfl
@[simp] theorem complete_pending (s : State) : (complete s).pending = s.pending := rfl
@[simp] theorem complete_replies (s : State) : (complete s).replies = s.replies := rfl
@[simp] theorem complete_draws (s : State) : (complete s).draws = s.draws := rfl

/-! `raiseError` -/

@[simp] theorem raiseError_status (e : ErrKind) (p : LenWord) (s : State) : (raiseError e p s).status = Status.failed e := rfl
@[simp] theorem raiseError_inLen (e : ErrKind) (p : LenWord) (s : State) : (raiseError e p s).inLen = s.inLen := rfl
@[simp] theorem raiseError_outLen (e : ErrKind) (p : LenWord) (s : State) : (raiseError e p s).outLen = 0 := rfl
@[simp] theorem raiseError_errPos (e : ErrKind) (p : LenWord) (s : State) : (raiseError e p s).errPos = p := rfl
@[simp] theorem raiseError_opr (e : ErrKind) (p : LenWord) (s : State) : (raiseError e p s).opr = s.opr := rfl
@[simp] theorem raiseError_ignr (e : ErrKind) (p : LenWord) (s : State) : (raiseError e p s).ignr = s.ignr := rfl
@[simp] theorem raiseError_phase (e : ErrKind) (p : LenWord) (s : State) : (raiseError e p s).phase = Phase.idle := rfl
@[simp] theorem raiseError_idx (e : ErrKind) (p : LenWord) (s : State) : (raiseError e p s).idx = s.idx := rfl
@[simp] theorem raiseError_odx (e : ErrKind) (p : LenWord) (s : State) : (raiseError e p s).odx = s.odx := rfl
@[simp] theorem raiseError_ibuf (e : ErrKind) (p : LenWord) (s : State) : (raiseError e p s).ibuf = s.ibuf := rfl
@[simp] theorem raiseError_obuf (e : ErrKind) (p : LenWord) (s : State) : (raiseError e p s).obuf = s.obuf := rfl
@[simp] theorem raiseError_dbuf (e : ErrKind) (p : LenWord) (s : State) : (raiseError e p s).dbuf = s.dbuf := rfl
@[simp] theorem raiseError_pending (e : ErrKind) (p : LenWord) (s : State) : (raiseError e p s).pending = s.pending := rfl
@[simp] theorem raiseError_replies (e : ErrKind) (p : LenWord) (s : State) : (raiseError e p s).replies = s.replies := rfl
@[simp] theorem raiseError_draws (e : ErrKind) (p : LenWord) (s : State) : (raiseError e p s).draws = s.draws := rfl

/-! `putObuf` -/

@[simp] theorem putObuf_status (k : OutWord) (v : Byte) (s : State) : (putObuf k v s).status = s.status := rfl
@[simp] theorem putObuf_inLen (k : OutWord) (v : Byte) (s : State) : (putObuf k v s).inLen = s.inLen := rfl
@[simp] theorem putObuf_outLen (k : OutWord) (v : Byte) (s : State) : (putObuf k v s).outLen = s.outLen := rfl
@[simp] theorem putObuf_errPos (k : OutWord) (v : Byte) (s : State) : (putObuf k v s).errPos = s.errPos := rfl
@[simp] theorem putObuf_opr (k : OutWord) (v : Byte) (s : State) : (putObuf k v s).opr = s.opr := rfl
@[simp] theorem putObuf_ignr (k : OutWord) (v : Byte) (s : State) : (putObuf k v s).ignr = s.ignr := rfl
@[simp] theorem putObuf_phase (k : OutWord) (v : Byte) (s : State) : (putObuf k v s).phase = s.phase := rfl
@[simp] theorem putObuf_idx (k : OutWord) (v : Byte) (s : State) : (putObuf k v s).idx = s.idx := rfl
@[simp] theorem putObuf_odx (k : OutWord) (v : Byte) (s : State) : (putObuf k v s).odx = s.odx := rfl
@[simp] theorem putObuf_ibuf (k : OutWord) (v : Byte) (s : State) : (putObuf k v s).ibuf = s.ibuf := rfl
@[simp] theorem putObuf_obuf (k : OutWord) (v : Byte) (s : State) : (putObuf k v s).obuf = Memory.write s.obuf (s.odx + k).toNat v := rfl
@[simp] theorem putObuf_dbuf (k : OutWord) (v : Byte) (s : State) : (putObuf k v s).dbuf = s.dbuf := rfl
@[simp] theorem putObuf_pending (k : OutWord) (v : Byte) (s : State) : (putObuf k v s).pending = s.pending := rfl
@[simp] theorem putObuf_replies (k : OutWord) (v : Byte) (s : State) : (putObuf k v s).replies = s.replies := rfl
@[simp] theorem putObuf_draws (k : OutWord) (v : Byte) (s : State) : (putObuf k v s).draws = s.draws := rfl

/-! `putDbuf` -/

@[simp] theorem putDbuf_status (v : DigitWord) (s : State) : (putDbuf v s).status = s.status := rfl
@[simp] theorem putDbuf_inLen (v : DigitWord) (s : State) : (putDbuf v s).inLen = s.inLen := rfl
@[simp] theorem putDbuf_outLen (v : DigitWord) (s : State) : (putDbuf v s).outLen = s.outLen := rfl
@[simp] theorem putDbuf_errPos (v : DigitWord) (s : State) : (putDbuf v s).errPos = s.errPos := rfl
@[simp] theorem putDbuf_opr (v : DigitWord) (s : State) : (putDbuf v s).opr = s.opr := rfl
@[simp] theorem putDbuf_ignr (v : DigitWord) (s : State) : (putDbuf v s).ignr = s.ignr := rfl
@[simp] theorem putDbuf_phase (v : DigitWord) (s : State) : (putDbuf v s).phase = s.phase := rfl
@[simp] theorem putDbuf_idx (v : DigitWord) (s : State) : (putDbuf v s).idx = s.idx := rfl
@[simp] theorem putDbuf_odx (v : DigitWord) (s : State) : (putDbuf v s).odx = s.odx := rfl
@[simp] theorem putDbuf_ibuf (v : DigitWord) (s : State) : (putDbuf v s).ibuf = s.ibuf := rfl
@[simp] theorem putDbuf_obuf (v : DigitWord) (s : State) : (putDbuf v s).obuf = s.obuf := rfl
@[simp] theorem putDbuf_dbuf (v : DigitWord) (s : State) : (putDbuf v s).dbuf = Memory.write s.dbuf s.idx.toNat v := rfl
@[simp] theorem putDbuf_pending (v : DigitWord) (s : State) : (putDbuf v s).pending = s.pending := rfl
@[simp] theorem putDbuf_replies (v : DigitWord) (s : State) : (putDbuf v s).replies = s.replies := rfl
@[simp] theorem putDbuf_draws (v : DigitWord) (s : State) : (putDbuf v s).draws = s.draws := rfl

/-! `clearDbuf` -/

@[simp] theorem clearDbuf_status (s : State) : (clearDbuf s).status = s.status := rfl
@[simp] theorem clearDbuf_inLen (s : State) : (clearDbuf s).inLen = s.inLen := rfl
@[simp] theorem clearDbuf_outLen (s : State) : (clearDbuf s).outLen = s.outLen := rfl
@[simp] theorem clearDbuf_errPos (s : State) : (clearDbuf s).errPos = s.errPos := rfl
@[simp] theorem clearDbuf_opr (s : State) : (clearDbuf s).opr = s.opr := rfl
@[simp] theorem clearDbuf_ignr (s : State) : (clearDbuf s).ignr = s.ignr := rfl
@[simp] theorem clearDbuf_phase (s : State) : (clearDbuf s).phase = s.phase := rfl
@[simp] theorem clearDbuf_idx (s : State) : (clearDbuf s).idx = s.idx := rfl
@[simp] theorem clearDbuf_odx (s : State) : (clearDbuf s).odx = s.odx := rfl
@[simp] theorem clearDbuf_ibuf (s : State) : (clearDbuf s).ibuf = s.ibuf := rfl
@[simp] theorem clearDbuf_obuf (s : State) : (clearDbuf s).obuf = s.obuf := rfl
@[simp] theorem clearDbuf_dbuf (s : State) : (clearDbuf s).dbuf = Memory.zeroFill s.dbuf s.inLen.toNat := rfl
@[simp] theorem clearDbuf_pending (s : State) : (clearDbuf s).pending = s.pending := rfl
@[simp] theorem clearDbuf_replies (s : State) : (clearDbuf s).replies = s.replies := rfl
@[simp] theorem clearDbuf_draws (s : State) : (clearDbuf s).draws = s.draws := rfl

/-! `advance` -/

@[simp] theorem advance_status (i : LenWord) (o : OutWord) (s : State) : (advance i o s).status = s.status := rfl
@[simp] theorem advance_inLen (i : LenWord) (o : OutWord) (s : State) : (advance i o s).inLen = s.inLen := rfl
@[simp] theorem advance_outLen (i : LenWord) (o : OutWord) (s : State) : (advance i o s).outLen = s.outLen := rfl
@[simp] theorem advance_errPos (i : LenWord) (o : OutWord) (s : State) : (advance i o s).errPos = s.errPos := rfl
@[simp] theorem advance_opr (i : LenWord) (o : OutWord) (s : State) : (advance i o s).opr = s.opr := rfl
@[simp] theorem advance_ignr (i : LenWord) (o : OutWord) (s : State) : (advance i o s).ignr = s.ignr := rfl
@[simp] theorem advance_phase (i : LenWord) (o : OutWord) (s : State) : (advance i o s).phase = s.phase := rfl
@[simp] theorem advance_idx (i : LenWord) (o : OutWord) (s : State) : (advance i o s).idx = s.idx + i := rfl
@[simp] theorem advance_odx (i : LenWord) (o : OutWord) (s : State) : (advance i o s).odx = s.odx + o := rfl
@[simp] theorem advance_ibuf (i : LenWord) (o : OutWord) (s : State) : (advance i o s).ibuf = s.ibuf := rfl
@[simp] theorem advance_obuf (i : LenWord) (o : OutWord) (s : State) : (advance i o s).obuf = s.obuf := rfl
@[simp] theorem advance_dbuf (i : LenWord) (o : OutWord) (s : State) : (advance i o s).dbuf = s.dbuf := rfl
@[simp] theorem advance_pending (i : LenWord) (o : OutWord) (s : State) : (advance i o s).pending = s.pending := rfl
@[simp] theorem advance_replies (i : LenWord) (o : OutWord) (s : State) : (advance i o s).replies = s.replies := rfl
@[simp] theorem advance_draws (i : LenWord) (o : OutWord) (s : State) : (advance i o s).draws = s.draws := rfl

/-! `beginTranslate` -/

@[simp] theorem beginTranslate_status (s : State) : (beginTranslate s).status = s.status := rfl
@[simp] theorem beginTranslate_inLen (s : State) : (beginTranslate s).inLen = s.inLen := rfl
@[simp] theorem beginTranslate_outLen (s : State) : (beginTranslate s).outLen = s.outLen := rfl
@[simp] theorem beginTranslate_errPos (s : State) : (beginTranslate s).errPos = s.errPos := rfl
@[simp] theorem beginTranslate_opr (s : State) : (beginTranslate s).opr = s.opr := rfl
@[simp] theorem beginTranslate_ignr (s : State) : (beginTranslate s).ignr = s.ignr := rfl
@[simp] theorem beginTranslate_phase (s : State) : (beginTranslate s).phase = Phase.decXl := rfl
@[simp] theorem beginTranslate_idx (s : State) : (beginTranslate s).idx = 0 := rfl
@[simp] theorem beginTranslate_odx (s : State) : (beginTranslate s).odx = 0 := rfl
@[simp] theorem beginTranslate_ibuf (s : State) : (beginTranslate s).ibuf = s.ibuf := rfl
@[simp] theorem beginTranslate_obuf (s : State) : (beginTranslate s).obuf = s.obuf := rfl
@[simp] theorem beginTranslate_dbuf (s : State) : (beginTranslate s).dbuf = s.dbuf := rfl
@[simp] theorem beginTranslate_pending (s : State) : (beginTranslate s).pending = s.pending := rfl
@[simp] theorem beginTranslate_replies (s : State) : (beginTranslate s).replies = s.replies := rfl
@[simp] theorem beginTranslate_draws (s : State) : (beginTranslate s).draws = s.draws := rfl

/-! `answer` -/

@[simp] theorem answer_status (x : Reply) (s : State) : (answer x s).status = s.status := rfl
@[simp] theorem answer_inLen (x : Reply) (s : State) : (answer x s).inLen = s.inLen := rfl
@[simp] theorem answer_outLen (x : Reply) (s : State) : (answer x s).outLen = s.outLen := rfl
@[simp] theorem answer_errPos (x : Reply) (s : State) : (answer x s).errPos = s.errPos := rfl
@[simp] theorem answer_opr (x : Reply) (s : State) : (answer x s).opr = s.opr := rfl
@[simp] theorem answer_ignr (x : Reply) (s : State) : (answer x s).ignr = s.ignr := rfl
@[simp] theorem answer_phase (x : Reply) (s : State) : (answer x s).phase = s.phase := rfl
@[simp] theorem answer_idx (x : Reply) (s : State) : (answer x s).idx = s.idx := rfl
@[simp] theorem answer_odx (x : Reply) (s : State) : (answer x s).odx = s.odx := rfl
@[simp] theorem answer_ibuf (x : Reply) (s : State) : (answer x s).ibuf = s.ibuf := rfl
@[simp] theorem answer_obuf (x : Reply) (s : State) : (answer x s).obuf = s.obuf := rfl
@[simp] theorem answer_dbuf (x : Reply) (s : State) : (answer x s).dbuf = s.dbuf := rfl
@[simp] theorem answer_pending (x : Reply) (s : State) : (answer x s).pending = s.pending := rfl
@[simp] theorem answer_replies (x : Reply) (s : State) : (answer x s).replies = x :: s.replies := rfl
@[simp] theorem answer_draws (x : Reply) (s : State) : (answer x s).draws = s.draws := rfl

/-! `answerFree` -/

@[simp] theorem answerFree_status (x : Nat → Reply) (s : State) : (answerFree x s).status = s.status := rfl
@[simp] theorem answerFree_inLen (x : Nat → Reply) (s : State) : (answerFree x s).inLen = s.inLen := rfl
@[simp] theorem answerFree_outLen (x : Nat → Reply) (s : State) : (answerFree x s).outLen = s.outLen := rfl
@[simp] theorem answerFree_errPos (x : Nat → Reply) (s : State) : (answerFree x s).errPos = s.errPos := rfl
@[simp] theorem answerFree_opr (x : Nat → Reply) (s : State) : (answerFree x s).opr = s.opr := rfl
@[simp] theorem answerFree_ignr (x : Nat → Reply) (s : State) : (answerFree x s).ignr = s.ignr := rfl
@[simp] theorem answerFree_phase (x : Nat → Reply) (s : State) : (answerFree x s).phase = s.phase := rfl
@[simp] theorem answerFree_idx (x : Nat → Reply) (s : State) : (answerFree x s).idx = s.idx := rfl
@[simp] theorem answerFree_odx (x : Nat → Reply) (s : State) : (answerFree x s).odx = s.odx := rfl
@[simp] theorem answerFree_ibuf (x : Nat → Reply) (s : State) : (answerFree x s).ibuf = s.ibuf := rfl
@[simp] theorem answerFree_obuf (x : Nat → Reply) (s : State) : (answerFree x s).obuf = s.obuf := rfl
@[simp] theorem answerFree_dbuf (x : Nat → Reply) (s : State) : (answerFree x s).dbuf = s.dbuf := rfl
@[simp] theorem answerFree_pending (x : Nat → Reply) (s : State) : (answerFree x s).pending = s.pending := rfl
@[simp] theorem answerFree_replies (x : Nat → Reply) (s : State) : (answerFree x s).replies = x s.draws :: s.replies := rfl
@[simp] theorem answerFree_draws (x : Nat → Reply) (s : State) : (answerFree x s).draws = s.draws + 1 := rfl

/-! `assertReset` -/

@[simp] theorem assertReset_status (s : State) : (assertReset s).status = { busy := false, done := false, err := .none } := rfl
@[simp] theorem assertReset_inLen (s : State) : (assertReset s).inLen = 0 := rfl
@[simp] theorem assertReset_outLen (s : State) : (assertReset s).outLen = 0 := rfl
@[simp] theorem assertReset_errPos (s : State) : (assertReset s).errPos = 0 := rfl
@[simp] theorem assertReset_opr (s : State) : (assertReset s).opr = false := rfl
@[simp] theorem assertReset_ignr (s : State) : (assertReset s).ignr = false := rfl
@[simp] theorem assertReset_phase (s : State) : (assertReset s).phase = Phase.idle := rfl
@[simp] theorem assertReset_idx (s : State) : (assertReset s).idx = 0 := rfl
@[simp] theorem assertReset_odx (s : State) : (assertReset s).odx = 0 := rfl
@[simp] theorem assertReset_ibuf (s : State) : (assertReset s).ibuf = [] := rfl
@[simp] theorem assertReset_obuf (s : State) : (assertReset s).obuf = [] := rfl
@[simp] theorem assertReset_dbuf (s : State) : (assertReset s).dbuf = [] := rfl
@[simp] theorem assertReset_pending (s : State) : (assertReset s).pending = s.pending := rfl
@[simp] theorem assertReset_replies (s : State) : (assertReset s).replies = s.replies := rfl
@[simp] theorem assertReset_draws (s : State) : (assertReset s).draws = s.draws := rfl

/-! `schedule` -/

@[simp] theorem schedule_status (ms : List HostMove) (s : State) : (schedule ms s).status = s.status := rfl
@[simp] theorem schedule_inLen (ms : List HostMove) (s : State) : (schedule ms s).inLen = s.inLen := rfl
@[simp] theorem schedule_outLen (ms : List HostMove) (s : State) : (schedule ms s).outLen = s.outLen := rfl
@[simp] theorem schedule_errPos (ms : List HostMove) (s : State) : (schedule ms s).errPos = s.errPos := rfl
@[simp] theorem schedule_opr (ms : List HostMove) (s : State) : (schedule ms s).opr = s.opr := rfl
@[simp] theorem schedule_ignr (ms : List HostMove) (s : State) : (schedule ms s).ignr = s.ignr := rfl
@[simp] theorem schedule_phase (ms : List HostMove) (s : State) : (schedule ms s).phase = s.phase := rfl
@[simp] theorem schedule_idx (ms : List HostMove) (s : State) : (schedule ms s).idx = s.idx := rfl
@[simp] theorem schedule_odx (ms : List HostMove) (s : State) : (schedule ms s).odx = s.odx := rfl
@[simp] theorem schedule_ibuf (ms : List HostMove) (s : State) : (schedule ms s).ibuf = s.ibuf := rfl
@[simp] theorem schedule_obuf (ms : List HostMove) (s : State) : (schedule ms s).obuf = s.obuf := rfl
@[simp] theorem schedule_dbuf (ms : List HostMove) (s : State) : (schedule ms s).dbuf = s.dbuf := rfl
@[simp] theorem schedule_pending (ms : List HostMove) (s : State) : (schedule ms s).pending = ms ++ s.pending := rfl
@[simp] theorem schedule_replies (ms : List HostMove) (s : State) : (schedule ms s).replies = s.replies := rfl
@[simp] theorem schedule_draws (ms : List HostMove) (s : State) : (schedule ms s).draws = s.draws := rfl

/-! `dropMove` -/

@[simp] theorem dropMove_status (s : State) : (dropMove s).status = s.status := rfl
@[simp] theorem dropMove_inLen (s : State) : (dropMove s).inLen = s.inLen := rfl
@[simp] theorem dropMove_outLen (s : State) : (dropMove s).outLen = s.outLen := rfl
@[simp] theorem dropMove_errPos (s : State) : (dropMove s).errPos = s.errPos := rfl
@[simp] theorem dropMove_opr (s : State) : (dropMove s).opr = s.opr := rfl
@[simp] theorem dropMove_ignr (s : State) : (dropMove s).ignr = s.ignr := rfl
@[simp] theorem dropMove_phase (s : State) : (dropMove s).phase = s.phase := rfl
@[simp] theorem dropMove_idx (s : State) : (dropMove s).idx = s.idx := rfl
@[simp] theorem dropMove_odx (s : State) : (dropMove s).odx = s.odx := rfl
@[simp] theorem dropMove_ibuf (s : State) : (dropMove s).ibuf = s.ibuf := rfl
@[simp] theorem dropMove_obuf (s : State) : (dropMove s).obuf = s.obuf := rfl
@[simp] theorem dropMove_dbuf (s : State) : (dropMove s).dbuf = s.dbuf := rfl
@[simp] theorem dropMove_pending (s : State) : (dropMove s).pending = s.pending.tail := rfl
@[simp] theorem dropMove_replies (s : State) : (dropMove s).replies = s.replies := rfl
@[simp] theorem dropMove_draws (s : State) : (dropMove s).draws = s.draws := rfl

/-! `nextCharacter` -/

@[simp] theorem nextCharacter_status (s : State) : (nextCharacter s).status = s.status := by
  unfold nextCharacter; split <;> rfl
@[simp] theorem nextCharacter_inLen (s : State) : (nextCharacter s).inLen = s.inLen := by
  unfold nextCharacter; split <;> rfl
@[simp] theorem nextCharacter_outLen (s : State) : (nextCharacter s).outLen = s.outLen := by
  unfold nextCharacter; split <;> rfl
@[simp] theorem nextCharacter_errPos (s : State) : (nextCharacter s).errPos = s.errPos := by
  unfold nextCharacter; split <;> rfl
@[simp] theorem nextCharacter_opr (s : State) : (nextCharacter s).opr = s.opr := by
  unfold nextCharacter; split <;> rfl
@[simp] theorem nextCharacter_ignr (s : State) : (nextCharacter s).ignr = s.ignr := by
  unfold nextCharacter; split <;> rfl
@[simp] theorem nextCharacter_odx (s : State) : (nextCharacter s).odx = s.odx := by
  unfold nextCharacter; split <;> rfl
@[simp] theorem nextCharacter_ibuf (s : State) : (nextCharacter s).ibuf = s.ibuf := by
  unfold nextCharacter; split <;> rfl
@[simp] theorem nextCharacter_obuf (s : State) : (nextCharacter s).obuf = s.obuf := by
  unfold nextCharacter; split <;> rfl
@[simp] theorem nextCharacter_dbuf (s : State) : (nextCharacter s).dbuf = s.dbuf := by
  unfold nextCharacter; split <;> rfl
@[simp] theorem nextCharacter_pending (s : State) : (nextCharacter s).pending = s.pending := by
  unfold nextCharacter; split <;> rfl
@[simp] theorem nextCharacter_replies (s : State) : (nextCharacter s).replies = s.replies := by
  unfold nextCharacter; split <;> rfl
@[simp] theorem nextCharacter_draws (s : State) : (nextCharacter s).draws = s.draws := by
  unfold nextCharacter; split <;> rfl

theorem nextCharacter_last (s : State) (h : s.idx + 1 = s.inLen) :
    nextCharacter s = { s with idx := 0, phase := .decEmit } := by
  unfold nextCharacter; rw [if_pos h]

theorem nextCharacter_inner (s : State) (h : s.idx + 1 ≠ s.inLen) :
    nextCharacter s = { s with idx := s.idx + 1 } := by
  unfold nextCharacter; rw [if_neg h]

/-! `whenIdle` -/

@[simp] theorem whenIdle_idle (f : State → State) (s : State) (h : s.status.busy = false) :
    whenIdle f s = f s := by
  simp [whenIdle, h]

@[simp] theorem whenIdle_busy (f : State → State) (s : State) (h : s.status.busy = true) :
    whenIdle f s = s := by
  simp [whenIdle, h]

end Sys2Proof.Machine
end

