-- ==== Sys2Proof/Laws/Exec.lean ====
section
/-! SUPPORT. What each instruction and each host move can do, said once, as equations over the named updates. -/

namespace Sys2Proof.Machine

/-! The instructions that read no buffer answer a next state, and the others one made from their operands. -/

theorem exec_nop (s : State) : exec .nop s = .next s := rfl

theorem exec_encode (s : State) : exec .encode s = .next (whenIdle startEncode s) := rfl

theorem exec_decode (s : State) : exec .decode s = .next (whenIdle (startDecode false) s) := rfl

theorem exec_decodeIgn (s : State) : exec .decodeIgn s = .next (whenIdle (startDecode true) s) := rfl

theorem exec_encFin (s : State) : exec .encFin s = .next (complete s) := rfl

theorem exec_decCheck (s : State) : exec .decCheck s = .next (checkLength s) := rfl

theorem exec_decDrop (s : State) : exec .decDrop s = .next (advance 1 0 s) := rfl

theorem exec_decFin (s : State) : exec .decFin s = .next (complete s) := rfl

theorem exec_encPair_next (s t : State) :
    exec .encPair s = .next t ↔
      ∃ b0 b1, ibufAt s 0 = .ok b0 ∧ ibufAt s 1 = .ok b1 ∧ t = encodePair s (b0, b1) := by
  show withOperands (ibufPair s) (encodePair s) = .next t ↔ _
  rw [withOperands_next]
  constructor
  · rintro ⟨⟨b0, b1⟩, h, rfl⟩
    exact ⟨b0, b1, ((ibufPair_ok s b0 b1).1 h).1, ((ibufPair_ok s b0 b1).1 h).2, rfl⟩
  · rintro ⟨b0, b1, h0, h1, rfl⟩
    exact ⟨(b0, b1), (ibufPair_ok s b0 b1).2 ⟨h0, h1⟩, rfl⟩

theorem exec_encTail_next (s t : State) :
    exec .encTail s = .next t ↔ ∃ b, ibufAt s 0 = .ok b ∧ t = encodeTail s b :=
  withOperands_next _ _ _

theorem exec_decXlat_next (s t : State) :
    exec .decXlat s = .next t ↔ ∃ c, ibufAt s 0 = .ok c ∧ t = translateCharacter s c :=
  withOperands_next _ _ _

theorem exec_decTriple_next (s t : State) :
    exec .decTriple s = .next t ↔
      ∃ d0 d1 d2, dbufAt s 0 = .ok d0 ∧ dbufAt s 1 = .ok d1 ∧ dbufAt s 2 = .ok d2 ∧
        t = emitTriple s (d0, d1, d2) := by
  show withOperands (dbufTriple s) (emitTriple s) = .next t ↔ _
  rw [withOperands_next]
  constructor
  · rintro ⟨⟨d0, d1, d2⟩, h, rfl⟩
    obtain ⟨h0, h1, h2⟩ := (dbufTriple_ok s d0 d1 d2).1 h
    exact ⟨d0, d1, d2, h0, h1, h2, rfl⟩
  · rintro ⟨d0, d1, d2, h0, h1, h2, rfl⟩
    exact ⟨(d0, d1, d2), (dbufTriple_ok s d0 d1 d2).2 ⟨h0, h1, h2⟩, rfl⟩

theorem exec_decPair_next (s t : State) :
    exec .decPair s = .next t ↔ ∃ d0 d1, dbufAt s 0 = .ok d0 ∧ dbufAt s 1 = .ok d1 ∧ t = emitPair s (d0, d1) := by
  show withOperands (dbufPair s) (emitPair s) = .next t ↔ _
  rw [withOperands_next]
  constructor
  · rintro ⟨⟨d0, d1⟩, h, rfl⟩
    exact ⟨d0, d1, ((dbufPair_ok s d0 d1).1 h).1, ((dbufPair_ok s d0 d1).1 h).2, rfl⟩
  · rintro ⟨d0, d1, h0, h1, rfl⟩
    exact ⟨(d0, d1), (dbufPair_ok s d0 d1).2 ⟨h0, h1⟩, rfl⟩

/-- No instruction is refused. -/
theorem exec_not_refused (i : Instr) (s : State) (r : Refusal) : exec i s ≠ .refused r := by
  cases i <;> first | exact withOperands_refused _ _ r | (intro h; cases h)

/-- The three ways DEC_CHECK ends (R165). -/
theorem checkLength_cases (s : State) :
    (s.inLen.toNat = 0 ∧ checkLength s = complete { s with outLen := 0 }) ∨
    (s.inLen.toNat % 3 = 1 ∧ s.ignr = false ∧ checkLength s = raiseError .invalidLength 0 s) ∨
    (s.inLen.toNat ≠ 0 ∧ (s.inLen.toNat % 3 = 1 → s.ignr = true) ∧
      checkLength s =
        beginTranslate (clearDbuf { s with outLen := BitVec.ofNat Config.olenW (decodeLen s.inLen.toNat) })) := by
  unfold checkLength
  by_cases h0 : s.inLen.toNat = 0
  · exact .inl ⟨h0, by simp [h0]⟩
  · by_cases h1 : s.inLen.toNat % 3 = 1 ∧ s.ignr = false
    · exact .inr (.inl ⟨h1.1, h1.2, by simp [h0, h1]⟩)
    · refine .inr (.inr ⟨h0, ?_, by simp only [h0, h1, if_false]⟩)
      intro h
      cases hg : s.ignr
      · exact absurd ⟨h, hg⟩ h1
      · rfl

/-- The three ways DEC_XLAT ends, its character being `c` (R166, R167). -/
theorem translateCharacter_cases (s : State) (c : Byte) :
    ((indexOf c).valid = true ∧ translateCharacter s c = nextCharacter (putDbuf (indexOf c).idx s)) ∨
    ((indexOf c).valid = false ∧ s.ignr = true ∧ translateCharacter s c = nextCharacter s) ∨
    ((indexOf c).valid = false ∧ s.ignr = false ∧
      translateCharacter s c = raiseError .invalidCharacter (errorPosition s) s) := by
  unfold translateCharacter
  cases hv : (indexOf c).valid <;> cases hg : s.ignr <;> simp [hv]

/-! The host's side. -/

theorem step_pending_nil (s : State) (h : s.pending = []) : step s = sequencerStep s := by
  simp [step, event, h]

theorem step_pending_cons (s : State) (m : HostMove) (rest : List HostMove) (h : s.pending = m :: rest) :
    step s = hostMove m (dropMove s) := by
  simp [step, event, h]

theorem dropMove_of_cons (s : State) (m : HostMove) (rest : List HostMove) (h : s.pending = m :: rest) :
    dropMove s = { s with pending := rest } := by
  simp [dropMove, h]

/-- The sequencer's step by phase and `rem` (R88). -/
theorem sequencerStep_eq (s : State) :
    sequencerStep s =
      match s.phase with
      | .idle => .next s
      | .encRun => exec (encStep (remaining s)) s
      | .decChk => exec .decCheck s
      | .decXl => exec .decXlat s
      | .decEmit => exec (emitStep (remaining s)) s := by
  unfold sequencerStep
  cases s.phase <;> rfl

/-- The sequencer is never refused. -/
theorem sequencerStep_not_refused (s : State) (r : Refusal) : sequencerStep s ≠ .refused r := by
  rw [sequencerStep_eq]
  cases s.phase <;> first | exact exec_not_refused _ s r | (intro h; cases h)

/-- A register read answers the defined value or draws one (R195). -/
theorem readRegister_cases (r : Nat) (s : State) :
    (∃ v, definedRegister s r = some v ∧ readRegister r s = answer (.register r v) s) ∨
    (definedRegister s r = none ∧
      readRegister r s = answerFree (fun n => .register r (Config.freeRegister n)) s) := by
  unfold readRegister
  cases h : definedRegister s r with
  | none => exact .inr ⟨rfl, rfl⟩
  | some v => exact .inl ⟨v, rfl, rfl⟩

/-- The ways a write to register 0 ends (R191, R193, R83, R80). -/
theorem writeCommand_cases (v : Nat) (s : State) :
    (s.status.busy = true ∧ writeCommand v s = .next s) ∨
    (s.status.busy = false ∧ ∃ i, decode (.cmd8 v) = .ok i ∧ writeCommand v s = exec i s) ∨
    (s.status.busy = false ∧ decode (.cmd8 v) = .error (.notEightBits v) ∧
      writeCommand v s = .refused (.notACommandWord v)) ∨
    (s.status.busy = false ∧ decode (.cmd8 v) = .error (.reservedCommand v) ∧ writeCommand v s = .next s) := by
  unfold writeCommand
  by_cases hb : s.status.busy = true
  · exact .inl ⟨hb, by rw [if_pos hb]⟩
  · rw [if_neg hb]
    have hf : s.status.busy = false := by simpa using hb
    refine .inr ?_
    by_cases h1 : 256 ≤ v
    · have hd : decode (.cmd8 v) = .error (.notEightBits v) := by simp [decode, decodeCmd8, h1]
      exact .inr (.inl ⟨hf, hd, by rw [hd]⟩)
    · by_cases h2 : v / 4 = 0
      · have hd : ∃ i, decode (.cmd8 v) = .ok i := by
          simp only [decode, decodeCmd8, h1, h2, if_false, ne_eq, not_true_eq_false]
          cases cmdDec v <;> cases cmdF v <;> exact ⟨_, rfl⟩
        obtain ⟨i, hi⟩ := hd
        exact .inl ⟨hf, i, hi, by rw [hi]⟩
      · have hd : decode (.cmd8 v) = .error (.reservedCommand v) := by simp [decode, decodeCmd8, h1, h2]
        exact .inr (.inr ⟨hf, hd, by rw [hd]⟩)

/-- A `CMD8` word decodes to one of the four commands (R82). -/
theorem decodeCmd8_command (v : Nat) (i : Instr) (h : decode (.cmd8 v) = .ok i) :
    i = .nop ∨ i = .encode ∨ i = .decode ∨ i = .decodeIgn := by
  simp only [decode, decodeCmd8] at h
  split at h
  · cases h
  · split at h
    · cases h
    · cases hd : cmdDec v <;> cases hf : cmdF v <;> simp [hd, hf] at h <;> simp [← h]

end Sys2Proof.Machine
end

