-- ==== Sys2Proof/Laws/PerInstr.lean ====
section
/-! SUPPORT. Statements for all instructions, one lemma per constructor. -/

namespace Sys2Proof.Laws

/-- The word the encoder writes for `i` is a well-formed word of its format (R80, R83, R87). -/
def EncodedWellFormed.Statement (i : Instr) : Prop := (encode i).wellFormed = true

theorem EncodedWellFormed.nop : EncodedWellFormed.Statement .nop := rfl
theorem EncodedWellFormed.encode : EncodedWellFormed.Statement .encode := rfl
theorem EncodedWellFormed.decode : EncodedWellFormed.Statement .decode := rfl
theorem EncodedWellFormed.decodeIgn : EncodedWellFormed.Statement .decodeIgn := rfl
theorem EncodedWellFormed.encPair : EncodedWellFormed.Statement .encPair := rfl
theorem EncodedWellFormed.encTail : EncodedWellFormed.Statement .encTail := rfl
theorem EncodedWellFormed.encFin : EncodedWellFormed.Statement .encFin := rfl
theorem EncodedWellFormed.decCheck : EncodedWellFormed.Statement .decCheck := rfl
theorem EncodedWellFormed.decXlat : EncodedWellFormed.Statement .decXlat := rfl
theorem EncodedWellFormed.decTriple : EncodedWellFormed.Statement .decTriple := rfl
theorem EncodedWellFormed.decPair : EncodedWellFormed.Statement .decPair := rfl
theorem EncodedWellFormed.decDrop : EncodedWellFormed.Statement .decDrop := rfl
theorem EncodedWellFormed.decFin : EncodedWellFormed.Statement .decFin := rfl

end Sys2Proof.Laws
end

