-- ==== Sys2Proof/Laws/Step.lean ====
section
/-! SUPPORT. Inversion: what an instruction, a turn of the sequencer, a host move and a step can do, said once. -/

namespace Sys2Proof.Machine

/-! Words. -/

theorem decode_cmd8_ok (v : Nat) (i : Instr) :
    decode (.cmd8 v) = .ok i ↔
      (v = 0 ∧ i = .nop) ∨ (v = 1 ∧ i = .encode) ∨ (v = 2 ∧ i = .decode) ∨ (v = 3 ∧ i = .decodeIgn) := by
  by_cases h : 256 ≤ v
  · simp only [decode, decodeCmd8]
    rw [if_pos h]
    simp
    omega
  · by_cases h2 : v < 4
    · interval_cases v <;> simp [decode, decodeCmd8, cmdDec, cmdF, eq_comm]
    · simp only [decode, decodeCmd8]
      rw [if_neg h, if_pos (by omega)]
      simp
      omega

theorem decode_phase3_ok (c r : Nat) (i : Instr) :
    decode (.phase3 c r) = .ok i ↔
      (c = 1 ∧ i = encStep r) ∨ (c = 2 ∧ i = .decCheck) ∨ (c = 3 ∧ i = .decXlat) ∨
        (c = 4 ∧ i = emitStep r) := by
  by_cases h : 8 ≤ c
  · simp only [decode, decodePhase3]
    rw [if_pos h]
    simp
    omega
  · have : c < 8 := by omega
    interval_cases c <;> simp [decode, decodePhase3, phaseOfCode, eq_comm]

/-! Operands at `IDX`. -/

theorem ibufAt_zero (s : State) : ibufAt s 0 = element .ibuf s.ibuf s.idx.toNat := by simp [ibufAt]

theorem dbufAt_zero (s : State) : dbufAt s 0 = element .dbuf s.dbuf s.idx.toNat := by simp [dbufAt]

theorem exec_encPair_of_read (s : State) (b0 b1 : Byte) (h0 : Memory.read s.ibuf s.idx.toNat = some b0)
    (h1 : Memory.read s.ibuf (s.idx + 1).toNat = some b1) :
    exec .encPair s = .next (encodePair s (b0, b1)) := by
  rw [exec_encPair_next]
  exact ⟨b0, b1, by rw [ibufAt_zero]; exact element_of_read _ h0, element_of_read _ h1, rfl⟩

theorem exec_encTail_of_read (s : State) (b : Byte) (h : Memory.read s.ibuf s.idx.toNat = some b) :
    exec .encTail s = .next (encodeTail s b) := by
  rw [exec_encTail_next]
  exact ⟨b, by rw [ibufAt_zero]; exact element_of_read _ h, rfl⟩

theorem exec_decXlat_of_read (s : State) (c : Byte) (h : Memory.read s.ibuf s.idx.toNat = some c) :
    exec .decXlat s = .next (translateCharacter s c) := by
  rw [exec_decXlat_next]
  exact ⟨c, by rw [ibufAt_zero]; exact element_of_read _ h, rfl⟩

theorem exec_decTriple_of_read (s : State) (d0 d1 d2 : DigitWord)
    (h0 : Memory.read s.dbuf s.idx.toNat = some d0) (h1 : Memory.read s.dbuf (s.idx + 1).toNat = some d1)
    (h2 : Memory.read s.dbuf (s.idx + 2).toNat = some d2) :
    exec .decTriple s = .next (emitTriple s (d0, d1, d2)) := by
  rw [exec_decTriple_next]
  exact ⟨d0, d1, d2, by rw [dbufAt_zero]; exact element_of_read _ h0, element_of_read _ h1,
    element_of_read _ h2, rfl⟩

theorem exec_decPair_of_read (s : State) (d0 d1 : DigitWord) (h0 : Memory.read s.dbuf s.idx.toNat = some d0)
    (h1 : Memory.read s.dbuf (s.idx + 1).toNat = some d1) :
    exec .decPair s = .next (emitPair s (d0, d1)) := by
  rw [exec_decPair_next]
  exact ⟨d0, d1, by rw [dbufAt_zero]; exact element_of_read _ h0, element_of_read _ h1, rfl⟩

/-! `ODX`, `ODX+1`, `ODX+2` are three different addresses (R59). -/

theorem odx_ne_one (o : OutWord) : o.toNat ≠ (o + 1).toNat := by
  have h := outWord_add_ne o 0 1 (by omega) (by decide)
  rwa [BitVec.add_zero] at h

theorem odx_ne_two (o : OutWord) : o.toNat ≠ (o + 2).toNat := by
  have h := outWord_add_ne o 0 2 (by omega) (by decide)
  rwa [BitVec.add_zero] at h

theorem odx_one_ne_two (o : OutWord) : (o + 1).toNat ≠ (o + 2).toNat :=
  outWord_add_ne o 1 2 (by omega) (by decide)

/-! Instructions. -/

/-- Everything an instruction can do when it answers a next state. -/
theorem exec_cases (i : Instr) (s t : State) (h : exec i s = .next t) :
    match i with
    | .nop => t = s
    | .encode => t = whenIdle startEncode s
    | .decode => t = whenIdle (startDecode false) s
    | .decodeIgn => t = whenIdle (startDecode true) s
    | .encPair => ∃ b, t = encodePair s b
    | .encTail => ∃ b, t = encodeTail s b
    | .encFin => t = complete s
    | .decCheck => t = checkLength s
    | .decXlat => ∃ c, Memory.read s.ibuf s.idx.toNat = some c ∧ t = translateCharacter s c
    | .decTriple => ∃ d, t = emitTriple s d
    | .decPair => ∃ d, t = emitPair s d
    | .decDrop => t = advance 1 0 s
    | .decFin => t = complete s := by
  cases i
  case encPair => obtain ⟨_, _, _, _, e⟩ := (exec_encPair_next _ _).1 h; exact ⟨_, e⟩
  case encTail => obtain ⟨_, _, e⟩ := (exec_encTail_next _ _).1 h; exact ⟨_, e⟩
  case decXlat =>
    obtain ⟨c, hc, e⟩ := (exec_decXlat_next _ _).1 h
    rw [ibufAt_zero, element_ok] at hc
    exact ⟨c, hc, e⟩
  case decTriple => obtain ⟨_, _, _, _, _, _, e⟩ := (exec_decTriple_next _ _).1 h; exact ⟨_, e⟩
  case decPair => obtain ⟨_, _, _, _, e⟩ := (exec_decPair_next _ _).1 h; exact ⟨_, e⟩
  all_goals (cases h; rfl)

theorem whenIdle_cases (f : State → State) (s : State) :
    (s.status.busy = true ∧ whenIdle f s = s) ∨ (s.status.busy = false ∧ whenIdle f s = f s) := by
  cases h : s.status.busy
  · exact .inr ⟨rfl, whenIdle_idle f s h⟩
  · exact .inl ⟨rfl, whenIdle_busy f s h⟩

/-! The sequencer. -/

/-- Everything a turn of the sequencer can do (R88). -/
theorem sequencerStep_cases (s t : State) (h : sequencerStep s = .next t) :
    (s.phase = .idle ∧ t = s) ∨
    (s.phase = .encRun ∧ 2 ≤ remaining s ∧ ∃ b, t = encodePair s b) ∨
    (s.phase = .encRun ∧ remaining s = 1 ∧ ∃ b, t = encodeTail s b) ∨
    (s.phase = .encRun ∧ remaining s = 0 ∧ t = complete s) ∨
    (s.phase = .decChk ∧ t = checkLength s) ∨
    (s.phase = .decXl ∧ ∃ c, Memory.read s.ibuf s.idx.toNat = some c ∧ t = translateCharacter s c) ∨
    (s.phase = .decEmit ∧ 3 ≤ remaining s ∧ ∃ d, t = emitTriple s d) ∨
    (s.phase = .decEmit ∧ remaining s = 2 ∧ ∃ d, t = emitPair s d) ∨
    (s.phase = .decEmit ∧ remaining s = 1 ∧ t = advance 1 0 s) ∨
    (s.phase = .decEmit ∧ remaining s = 0 ∧ t = complete s) := by
  rw [sequencerStep_eq] at h
  cases hp : s.phase <;> rw [hp] at h <;> simp only at h
  · cases h; simp
  · rcases hr : remaining s with _ | _ | k <;> rw [hr] at h <;> simp only [encStep] at h
    · cases h; simp
    · obtain ⟨b, e⟩ := exec_cases _ s t h
      exact .inr (.inr (.inl ⟨rfl, rfl, b, e⟩))
    · obtain ⟨b, e⟩ := exec_cases _ s t h
      exact .inr (.inl ⟨rfl, by omega, b, e⟩)
  · cases h; simp
  · obtain ⟨c, hc, e⟩ := exec_cases _ s t h
    exact .inr (.inr (.inr (.inr (.inr (.inl ⟨rfl, c, hc, e⟩)))))
  · rcases hr : remaining s with _ | _ | _ | k <;> rw [hr] at h <;> simp only [emitStep] at h
    · cases h; simp
    · cases h; simp
    · obtain ⟨d, e⟩ := exec_cases _ s t h
      exact .inr (.inr (.inr (.inr (.inr (.inr (.inr (.inl ⟨rfl, rfl, d, e⟩)))))))
    · obtain ⟨d, e⟩ := exec_cases _ s t h
      exact .inr (.inr (.inr (.inr (.inr (.inr (.inl ⟨rfl, by omega, d, e⟩))))))

/-! The host's moves. -/

theorem step_move (s : State) (m : HostMove) (rest : List HostMove) (h : s.pending = m :: rest) :
    step s = hostMove m { s with pending := rest } := by
  rw [step_pending_cons _ _ _ h, dropMove_of_cons _ _ _ h]

theorem readRegister_same (r : Nat) (s : State) : SameBlock s (readRegister r s) := by
  rcases readRegister_cases r s with ⟨v, _, e⟩ | ⟨_, e⟩ <;> rw [e] <;> rfl

theorem schedule_same (ms : List HostMove) (s t : State) (h : SameBlock s t) : SameBlock s (schedule ms t) := by
  unfold SameBlock at h ⊢
  rw [h]
  rfl

/-- Everything a move of the host can do to the block. -/
theorem hostMove_cases (s t : State) (m : HostMove) (h : hostMove m s = .next t) :
    SameBlock s t ∨ t = assertReset s ∨ sequencerStep s = .next t ∨
    (s.status.busy = false ∧ (t = startEncode s ∨ t = startDecode false s ∨ t = startDecode true s)) ∨
    (s.status.busy = false ∧ ∃ v, t = { s with inLen := v }) ∨
    (s.status.busy = false ∧ ∃ i v, i < Config.capIn ∧ t = { s with ibuf := Memory.write s.ibuf i v }) := by
  cases m with
  | rd r => cases h; exact .inl (readRegister_same r _)
  | wr r v =>
    change writeRegister r v s = _ at h
    unfold writeRegister at h
    split at h
    · rcases writeCommand_cases v s with ⟨_, e⟩ | ⟨hb, i, hd, e⟩ | ⟨_, _, e⟩ | ⟨_, _, e⟩ <;> rw [e] at h
      · cases h; exact .inl rfl
      · have := exec_cases i s t h
        rcases decodeCmd8_command v i hd with rfl | rfl | rfl | rfl <;> simp only at this
        · exact .inl (by rw [this])
        all_goals (rw [whenIdle_idle _ _ hb] at this; subst this; simp [hb])
      · cases h
      · cases h; exact .inl rfl
    · cases h
      rw [writeInLen]
      rcases whenIdle_cases (fun s => { s with inLen := BitVec.ofNat Config.lenW v }) s with ⟨_, e⟩ | ⟨hb, e⟩ <;> rw [e]
      · exact .inl rfl
      · exact .inr (.inr (.inr (.inr (.inl ⟨hb, _, rfl⟩))))
    · cases h; exact .inl rfl
  | wrb i v =>
    cases h
    unfold writeIbuf
    split
    · rename_i hc
      exact .inr (.inr (.inr (.inr (.inr ⟨hc.1, i, v, hc.2, rfl⟩))))
    · exact .inl rfl
  | rdb i =>
    change readObuf i s = _ at h
    unfold readObuf at h
    split at h
    · obtain ⟨_, _, rfl⟩ := (withOperands_next _ _ _).1 h
      exact .inl rfl
    · cases h; exact .inl rfl
  | reset => cases h; exact .inr (.inl rfl)
  | letRun => exact .inr (.inr (.inl h))
  | wait =>
    cases h
    left
    unfold waitRound
    simp only
    split
    · exact readRegister_same _ _
    · exact schedule_same _ _ _ (readRegister_same 1 _)
  | readout => cases h; exact .inl (schedule_same _ _ _ (readRegister_same 3 _))
  | copyback => cases h; exact .inl (schedule_same _ _ _ (readRegister_same 3 _))
  | reload m => cases h; exact .inl (schedule_same _ _ _ rfl)

/-- How to show that a step keeps a property of the block: it is said of the block alone, it holds after reset, and the
sequencer's turn, an accepted command, a write of `IN_LEN` and a write of `IBUF` keep it. -/
theorem step_keeps (P : State → Prop) (hsame : ∀ s t, SameBlock s t → P s → P t) (hreset : ∀ s, P (assertReset s))
    (hseq : ∀ s t, P s → sequencerStep s = .next t → P t)
    (hcmd : ∀ s, P s → s.status.busy = false → P (startEncode s) ∧ ∀ ign, P (startDecode ign s))
    (hlen : ∀ s v, P s → s.status.busy = false → P { s with inLen := v })
    (hbuf : ∀ s i v, P s → s.status.busy = false → i < Config.capIn → P { s with ibuf := Memory.write s.ibuf i v })
    (s t : State) (hP : P s) (h : step s = .next t) : P t := by
  have key : ∀ s t m, P s → hostMove m s = .next t → P t := by
    intro s t m hP h
    rcases hostMove_cases s t m h with e | e | e | ⟨hb, e⟩ | ⟨hb, v, e⟩ | ⟨hb, i, v, hi, e⟩
    · exact hsame s t e hP
    · rw [e]; exact hreset s
    · exact hseq s t hP e
    · rcases e with e | e | e <;> rw [e]
      · exact (hcmd s hP hb).1
      · exact (hcmd s hP hb).2 _
      · exact (hcmd s hP hb).2 _
    · rw [e]; exact hlen s v hP hb
    · rw [e]; exact hbuf s i v hP hb hi
  cases hp : s.pending with
  | nil =>
    rw [step_pending_nil s hp] at h
    exact hseq s t hP h
  | cons m rest =>
    rw [step_pending_cons s m rest hp] at h
    exact key _ _ m (hsame s (dropMove s) rfl hP) h

/-! Runs. -/

theorem run_step (M : Host.Core) (n : Nat) (s t : M.State) (h : M.step s = .next t) :
    M.run (n + 1) s = M.run n t := by
  simp [Host.Core.run, h]

theorem core_run_step (n : Nat) (s t : State) (h : step s = .next t) :
    Host.Core.run core (n + 1) s = Host.Core.run core n t :=
  run_step core n s t h

theorem run_add (M : Host.Core) (m n : Nat) (s t : M.State) (h : M.run m s = .next t) :
    M.run (m + n) s = M.run n t := by
  induction m generalizing s with
  | zero => cases h; rw [Nat.zero_add]
  | succ m ih =>
    rw [Nat.succ_add]
    cases hs : M.step s with
    | next u => rw [run_step _ _ _ _ hs] at h ⊢; exact ih u h
    | fault f => simp [Host.Core.run, hs] at h
    | refused f => simp [Host.Core.run, hs] at h

/-- An idle block without host moves stays as it is (R88: in `IDLE` the sequencer has no step). -/
theorem core_run_idle (n : Nat) (s : State) (hp : s.pending = []) (hi : s.phase = .idle) :
    Host.Core.run core n s = .next s := by
  induction n with
  | zero => rfl
  | succ n ih =>
    have h : step s = .next s := by rw [step_pending_nil s hp, sequencerStep_eq, hi]
    rw [core_run_step n s s h, ih]

end Sys2Proof.Machine
end

