-- ==== Sys2Proof/Laws/Tables.lean ====
section
/-! SUPPORT. The codes of a text (R95, R102). -/

namespace Sys2Proof.Machine

/-- The `i`-th character of the alphabet has, as its `CHAR_ROM` entry, its own character number. -/
theorem alphabet_ascii (i : Fin 45) : (alphabet[i.val]?).map Char.toNat = some (charAt (Fin.ofNat 45 i.val)).toNat := by
  revert i
  decide

/-- Where the alphabet has `c`, it has it at the index that the search finds. -/
theorem alphabet_getElem_of_idxOf (c : Char) (i : Nat) (h : alphabet.idxOf? c = some i) : alphabet[i]? = some c := by
  have hf := List.of_findIdx?_eq_some (p := (· == c)) (xs := alphabet) (i := i) (by simpa [List.idxOf?] using h)
  cases hx : alphabet[i]? with
  | none => simp [hx] at hf
  | some d =>
    simp [hx] at hf
    rw [hf]

/-- A code that `LOADS` gives is the character's own number: R102's codes are the ASCII codes. -/
theorem charCode_toNat (c : Char) (x : Byte) (h : charCode c = some x) : x.toNat = c.toNat := by
  unfold charCode at h
  split at h
  · rename_i i hi
    cases h
    have hg := alphabet_getElem_of_idxOf c i hi
    have ha := alphabet_ascii ⟨i, (List.getElem?_eq_some_iff.1 hg).1⟩
    simp only [hg, Option.map_some] at ha
    exact (Option.some.inj ha).symm
  · split at h
    · cases h
      rw [BitVec.toNat_ofNat]
      omega
    · cases h

/-- Every ASCII character has a code. -/
theorem charCode_of_ascii (c : Char) (h : c.toNat < 128) : ∃ x, charCode c = some x := by
  unfold charCode
  split
  · exact ⟨_, rfl⟩
  · exact ⟨_, by rw [if_pos h]⟩

/-- A text has codes exactly when its first character and the rest have. -/
theorem textCodes_cons (c : Char) (cs : List Char) (ys : List Byte) :
    textCodes (c :: cs) = some ys ↔ ∃ x xs, charCode c = some x ∧ textCodes cs = some xs ∧ ys = x :: xs := by
  simp only [textCodes]
  split
  · rename_i x xs hx hxs
    simp [hx, hxs, eq_comm]
  · rename_i hno
    constructor
    · intro h; cases h
    · rintro ⟨x, xs, hx, hxs, -⟩
      exact absurd hxs (hno x xs hx)

end Sys2Proof.Machine
end

