-- ==== Sys2Proof/Tests/Slice0.lean ====
section
/-! SUPPORT. Tests. Expected values come from `95_test_vectors.md` (the identifier of the row stands in the comment) or
from the encoding tables R82, R87, R88; and, for every obligation with hypotheses, a state that meets them. -/

namespace Sys2Proof.Tests

open Sys2Proof Sys2Proof.Machine

/-! ## Helpers -/

/-- The elements of a list, from index `i` on. -/
def cellsFrom {w : Nat} (i : Nat) : List (BitVec w) → Buffer w
  | [] => []
  | x :: xs => (i, x) :: cellsFrom (i + 1) xs

def cells {w : Nat} (xs : List (BitVec w)) : Buffer w := cellsFrom 0 xs

/-- The next state, where there is one. -/
def nextOf (o : Host.Outcome State Fault Refusal) : Option State :=
  match o with
  | .next t => some t
  | .fault _ => none
  | .refused _ => none

/-- The fault, where there is one. -/
def faultOf (o : Host.Outcome State Fault Refusal) : Option Fault :=
  match o with
  | .next _ => none
  | .fault f => some f
  | .refused _ => none

/-- Whether the outcome is a refusal. -/
def isRefused (o : Host.Outcome State Fault Refusal) : Bool :=
  match o with
  | .next _ => false
  | .fault _ => false
  | .refused _ => true

/-- An idle block with `IN_LEN` elements loaded and the host's moves `ms` to come. -/
def idleWith (xs : List Byte) (ms : List HostMove) : State :=
  { State.reset with inLen := BitVec.ofNat Config.lenW xs.length, ibuf := cells xs, pending := ms }

/-- A running `ENCODE` on `xs`, at `IDX = i`. -/
def encoding (xs : List Byte) (i : Nat) (out : List Byte) : State :=
  { idleWith xs [] with
    status := .accepted, phase := .encRun, idx := BitVec.ofNat Config.lenW i, odx := BitVec.ofNat Config.olenW out.length,
    outLen := BitVec.ofNat Config.olenW (encodeLen xs.length), obuf := cells out }

/-- A decode of `xs` before its length check. -/
def checking (xs : List Byte) (ign : Bool) : State :=
  { idleWith xs [] with status := .accepted, phase := .decChk, opr := true, ignr := ign }

/-- A decode of `xs` that translates, at `IDX = i`, with the digits `ds`. -/
def translating (xs : List Byte) (ign : Bool) (i : Nat) (ds : List DigitWord) : State :=
  { checking xs ign with
    phase := .decXl, idx := BitVec.ofNat Config.lenW i, outLen := BitVec.ofNat Config.olenW (decodeLen xs.length), dbuf := cells ds }

/-- A decode of `xs` that emits, at `IDX = i`, with the bytes `out` written. -/
def emitting (xs : List Byte) (ign : Bool) (i : Nat) (ds : List DigitWord) (out : List Byte) : State :=
  { translating xs ign i ds with
    phase := .decEmit, odx := BitVec.ofNat Config.olenW out.length, obuf := cells out }

/-! ## Well-formedness: an ill-formed word for each check -/

theorem test_wf_cmd8_not_eight_bits : (CodeWord.cmd8 256).wellFormed = false := by decide
theorem test_wf_cmd8_reserved : (CodeWord.cmd8 4).wellFormed = false := by decide
theorem test_wf_phase3_not_three_bits : (CodeWord.phase3 8 0).wellFormed = false := by decide
theorem test_wf_phase3_idle : (CodeWord.phase3 0 0).wellFormed = false := by decide
theorem test_wf_phase3_unused : (CodeWord.phase3 5 0).wellFormed = false := by decide
theorem test_wf_good_words : (CodeWord.cmd8 3).wellFormed = true ∧ (CodeWord.phase3 4 9).wellFormed = true := by decide

/-! ## Decoding: every constructor by a word written out from R82 and R88 -/

/-- What the decoder reads, as an option. -/
def decoded (c : CodeWord) : Option Instr :=
  match decode c with
  | .ok i => some i
  | .error _ => none

/-- Why the decoder refuses. -/
def refusedBy (c : CodeWord) : Option DecodeError :=
  match decode c with
  | .ok _ => none
  | .error e => some e

theorem test_decode_nop : decoded (.cmd8 0b00000000) = some .nop := by decide
theorem test_decode_encode : decoded (.cmd8 0b00000001) = some .encode := by decide
theorem test_decode_decode : decoded (.cmd8 0b00000010) = some .decode := by decide
theorem test_decode_decodeIgn : decoded (.cmd8 0b00000011) = some .decodeIgn := by decide
theorem test_decode_encPair : decoded (.phase3 0b001 2) = some .encPair := by decide
theorem test_decode_encPair_most : decoded (.phase3 0b001 65535) = some .encPair := by decide
theorem test_decode_encTail : decoded (.phase3 0b001 1) = some .encTail := by decide
theorem test_decode_encFin : decoded (.phase3 0b001 0) = some .encFin := by decide
theorem test_decode_decCheck : decoded (.phase3 0b010 0) = some .decCheck := by decide
theorem test_decode_decXlat : decoded (.phase3 0b011 1) = some .decXlat := by decide
theorem test_decode_decTriple : decoded (.phase3 0b100 3) = some .decTriple := by decide
theorem test_decode_decPair : decoded (.phase3 0b100 2) = some .decPair := by decide
theorem test_decode_decDrop : decoded (.phase3 0b100 1) = some .decDrop := by decide
theorem test_decode_decFin : decoded (.phase3 0b100 0) = some .decFin := by decide
/-- K6, K7, and R87's codes without a step. -/
theorem test_decode_refuses :
    refusedBy (.cmd8 0x04) = some (.reservedCommand 0x04) ∧ refusedBy (.cmd8 0x81) = some (.reservedCommand 0x81) ∧
    refusedBy (.cmd8 0x101) = some (.notEightBits 0x101) ∧ refusedBy (.phase3 0 3) = some .idlePhase ∧
    refusedBy (.phase3 7 3) = some (.unusedPhase 7) ∧ refusedBy (.phase3 8 3) = some (.notThreeBits 8) := by
  decide
/-- The opcode table's own words. -/
theorem test_decodeTableWord :
    decodeTableWord 8 0x00 = some .nop ∧ decodeTableWord 8 0x01 = some .encode ∧
    decodeTableWord 8 0x02 = some .decode ∧ decodeTableWord 8 0x03 = some .decodeIgn ∧
    decodeTableWord 3 1 = some .encFin ∧ decodeTableWord 3 2 = some .decCheck ∧
    decodeTableWord 3 3 = some .decXlat ∧ decodeTableWord 3 4 = some .decFin ∧
    decodeTableWord 8 0x04 = some .decFin ∧ decodeTableWord 8 0x05 = none ∧ decodeTableWord 16 0 = none := by
  decide
/-- The very next step runs the placed word. -/
theorem test_withFetchWord :
    (nextOf (step (State.reset.withFetchWord 8 1))).map (fun t => t.phase) = some .encRun ∧
    (nextOf (step (State.reset.withFetchWord 3 2))).map (fun t => (t.phase, t.status.done)) = some (.idle, true) ∧
    (nextOf (step (State.reset.withFetchWord 8 4))).map (fun t => (t.phase, t.status.done)) = some (.idle, true) ∧
    faultOf (step (State.reset.withFetchWord 3 3)) = some (.noValue .ibuf 0) := by
  decide

/-! ## Tables and arithmetic -/

/-- T1 to T7. -/
theorem test_charAt :
    [0, 9, 10, 35, 36, 37, 38, 39, 40, 41, 42, 43, 44].map (fun n => charAt (Fin.ofNat 45 n)) =
      [0x30, 0x39, 0x41, 0x5A, 0x20, 0x24, 0x25, 0x2A, 0x2B, 0x2D, 0x2E, 0x2F, 0x3A] := by decide
/-- T8 to T11, T15. -/
theorem test_indexOf_valid :
    [0x30, 0x5A, 0x20, 0x3A, 0x2F].map indexOf = [⟨true, 0⟩, ⟨true, 35⟩, ⟨true, 36⟩, ⟨true, 44⟩, ⟨true, 43⟩] := by
  decide
/-- T12 to T15. -/
theorem test_indexOf_invalid :
    [0x2C, 0x61, 0x00, 0x7F, 0x80, 0xFF, 0x3B, 0x40, 0x5B].all (fun c => indexOf c == ⟨false, 0⟩) = true := by
  decide
/-- A1. -/
theorem test_pack16 : pack16 0 0 = 0 ∧ pack16 0 1 = 1 ∧ pack16 1 0 = 256 ∧ pack16 0xFF 0xFF = 65535 := by decide
/-- A2, A3. -/
theorem test_divmod45 :
    [0, 44, 45, 89, 90, 2024, 2025, 65535].map divmod45 =
      [(0, 0), (0, 44), (1, 0), (1, 44), (2, 0), (44, 44), (45, 0), (1456, 15)] := by decide
/-- A5, A6. -/
theorem test_digits3 :
    [256, 2024, 2025, 65535, 18533, 27756].map digits3 =
      [(31, 5, 0), (44, 44, 0), (0, 0, 1), (15, 16, 32), (38, 6, 9), (36, 31, 13)] := by decide
/-- A7. -/
theorem test_digits2 :
    [0, 28, 44, 45, 89, 90, 128, 255].map digits2 =
      [(0, 0), (28, 0), (44, 0), (0, 1), (44, 1), (0, 2), (38, 2), (30, 5)] := by decide
/-- A9, A10. -/
theorem test_mac :
    mac3 15 16 32 = 65535 ∧ mac3 16 16 32 = 65536 ∧ mac3 44 44 32 = 66824 ∧ mac3 44 44 44 = 91124 ∧
    mac2 30 5 = 255 ∧ mac2 31 5 = 256 ∧ mac2 44 44 = 2024 := by decide
/-- A11, A12. -/
theorem test_split16 :
    [255, 256, 65535, 65536, 66824, 91124].map split16 =
      [(0x00, 0xFF), (0x01, 0x00), (0xFF, 0xFF), (0x00, 0x00), (0x05, 0x08), (0x63, 0xF4)] := by decide
/-- A13. -/
theorem test_trunc8 : [255, 256, 511, 2024].map trunc8 = [0xFF, 0x00, 0xFF, 0xE8] := by decide
/-- S2, E9, E22. -/
theorem test_encodeBytes :
    encodeBytes [0x48, 0x65, 0x6C, 0x6C, 0x6F, 0x21, 0x21] =
      [0x25, 0x36, 0x39, 0x20, 0x56, 0x44, 0x39, 0x32, 0x45, 0x58, 0x30] ∧
    encodeBytes [0x2C] = [0x3A, 0x30] ∧ encodeBytes [0x2C, 0x2D] = [0x45, 0x51, 0x35] := by decide
/-- D14, D10, D12, D30. -/
theorem test_decodeString :
    decodeString [0x42, 0x7E, 0x38] true = .bytes [0x3F, 0x53] ∧ decodeString [0x7E] false = .invalidLength ∧
    decodeString [0x42, 0x42, 0x38, 0x42, 0x7E] false = .invalidCharacter 4 ∧
    decodeString [0x3A, 0x3A, 0x3A, 0x3A] true = .bytes [0x63, 0xF4] := by decide

/-! ## One step of each instruction -/

/-- K3, K4: `NOP` keeps a status with an error. -/
theorem test_nop :
    nextOf (exec .nop { State.reset with status := .failed .invalidCharacter, errPos := 1 }) =
      some { State.reset with status := .failed .invalidCharacter, errPos := 1 } := by decide
/-- P1, acceptance. -/
theorem test_encode :
    (nextOf (exec .encode (idleWith [0x41, 0x42] []))).map
      (fun t => (t.phase, t.outLen, statusWord t.status, t.opr, t.ignr)) =
      some (.encRun, 3, 0x01, false, false) := by decide
/-- K8: ignored while a decode runs. -/
theorem test_encode_busy : nextOf (exec .encode (checking [0x42] true)) = some (checking [0x42] true) := by decide
/-- P3, acceptance; the error of the command before is cleared. -/
theorem test_decode :
    (nextOf (exec .decode { idleWith [0x42] [] with status := .failed .invalidLength, outLen := 3 })).map
      (fun t => (t.phase, t.outLen, statusWord t.status, t.opr, t.ignr)) =
      some (.decChk, 0, 0x01, true, false) := by decide
theorem test_decodeIgn :
    (nextOf (exec .decodeIgn { idleWith [0x42] [] with status := .failed .invalidCharacter, errPos := 1 })).map
      (fun t => (t.phase, t.errPos, statusWord t.status, t.opr, t.ignr)) =
      some (.decChk, 0, 0x01, true, true) := by decide
/-- P1: "AB" gives "BB8". -/
theorem test_encPair :
    (nextOf (exec .encPair (encoding [0x41, 0x42] 0 []))).map (fun t => (t.obuf, t.idx, t.odx, t.phase)) =
      some (cells [0x42, 0x42, 0x38], 2, 3, .encRun) := by decide
/-- E5: the byte at the lower index is the more significant. -/
theorem test_encPair_byte_order :
    (nextOf (exec .encPair (encoding [0x01, 0x00] 0 []))).map (fun t => t.obuf) =
      some (cells [0x56, 0x35, 0x30]) := by decide
/-- E18: the tail 0x56 after one pair. -/
theorem test_encTail :
    (nextOf (exec .encTail (encoding [0x12, 0x34, 0x56] 2 [0x50, 0x44, 0x32]))).map
      (fun t => (t.obuf, t.idx, t.odx)) = some (cells [0x50, 0x44, 0x32, 0x2D, 0x31], 3, 5) := by decide
/-- E9: the corrected example, byte 44. -/
theorem test_encTail_44 :
    (nextOf (exec .encTail (encoding [0x2C] 0 []))).map (fun t => t.obuf) = some (cells [0x3A, 0x30]) := by decide
/-- P1. -/
theorem test_encFin :
    (nextOf (exec .encFin (encoding [0x41, 0x42] 2 [0x42, 0x42, 0x38]))).map
      (fun t => (t.phase, statusWord t.status, t.outLen, t.idx, t.odx)) = some (.idle, 0x02, 3, 2, 3) := by decide
/-- D8, D29. -/
theorem test_decCheck_length :
    (nextOf (exec .decCheck (checking [0x3A, 0x3A, 0x3A, 0x3A] false))).map
      (fun t => (t.phase, statusWord t.status, t.outLen, t.dbuf)) = some (.idle, 0x06, 0, []) := by decide
/-- P4: the same length under `IGNR`. -/
theorem test_decCheck_ign :
    (nextOf (exec .decCheck (checking [0x3A, 0x3A, 0x3A, 0x3A] true))).map
      (fun t => (t.phase, statusWord t.status, t.outLen, t.dbuf)) =
      some (.decXl, 0x01, 2, cells [0, 0, 0, 0]) := by decide
/-- P3, the second command: `0x38`, the last character. -/
theorem test_decXlat :
    (nextOf (exec .decXlat (translating [0x42, 0x7E, 0x38] true 2 [11, 0, 0]))).map
      (fun t => (t.dbuf, t.idx, t.phase)) = some (cells [11, 0, 8], 0, .decEmit) := by decide
/-- P3, the first command: `0x7E`. -/
theorem test_decXlat_error :
    (nextOf (exec .decXlat (translating [0x42, 0x7E, 0x38] false 1 [11, 0, 0]))).map
      (fun t => (t.phase, statusWord t.status, t.errPos, t.outLen, t.idx)) = some (.idle, 0x0A, 1, 0, 1) := by decide
/-- P4: the value 91124. -/
theorem test_decTriple :
    (nextOf (exec .decTriple (emitting [0x3A, 0x3A, 0x3A, 0x3A] true 0 [44, 44, 44, 44] []))).map
      (fun t => (t.obuf, t.idx, t.odx)) = some (cells [0x63, 0xF4], 3, 2) := by decide
/-- D32: the tail value 506. -/
theorem test_decPair :
    (nextOf (exec .decPair (emitting [0x42, 0x42, 0x38, 0x42, 0x42] false 3 [11, 11, 8, 11, 11] [0x41, 0x42]))).map
      (fun t => (t.obuf, t.idx, t.odx)) = some (cells [0x41, 0x42, 0xFA], 5, 3) := by decide
/-- P4. -/
theorem test_decDrop :
    (nextOf (exec .decDrop (emitting [0x3A, 0x3A, 0x3A, 0x3A] true 3 [44, 44, 44, 44] [0x63, 0xF4]))).map
      (fun t => (t.obuf, t.idx, t.odx)) = some (cells [0x63, 0xF4], 4, 2) := by decide
/-- P4. -/
theorem test_decFin :
    (nextOf (exec .decFin (emitting [0x3A, 0x3A, 0x3A, 0x3A] true 4 [44, 44, 44, 44] [0x63, 0xF4]))).map
      (fun t => (t.phase, statusWord t.status, t.outLen)) = some (.idle, 0x02, 2) := by decide

/-! ## One move of the host -/

/-- K10. -/
theorem test_wr_read_only :
    (nextOf (step (idleWith [0x42] [.wr 1 0xFF]))).map (fun t => (t.status, t.outLen, t.errPos)) =
      some (State.reset.status, 0, 0) := by decide
/-- P5: a word with `WR CMD, 0x04`; K7. -/
theorem test_wr_reserved : nextOf (step (idleWith [0x42] [.wr 0 0x04])) = some (idleWith [0x42] []) := by decide
/-- U7: the low `LEN_W` bits. -/
theorem test_wr_inLen_wide :
    (nextOf (step (idleWith [] [.wr 2 0x10003]))).map (fun t => t.inLen) = some 3 := by decide
/-- K9. -/
theorem test_wr_inLen_busy :
    (nextOf (step { checking [0x42] true with pending := [.wr 2 0] })).map (fun t => t.inLen) = some 1 := by decide
/-- K4: `STATUS` reads `0x0A`. -/
theorem test_rd_status :
    (nextOf (step { State.reset with status := .failed .invalidCharacter, pending := [.rd 1] })).map
      (fun t => t.replies) = some [.register 1 0x0A] := by decide
theorem test_wrb :
    (nextOf (step (idleWith [0x41] [.wrb 1 0x42]))).map (fun t => t.ibuf) = some (cells [0x41, 0x42]) := by decide
theorem test_rdb :
    (nextOf (step { State.reset with obuf := cells [0x55, 0x35], pending := [.rdb 1] })).map (fun t => t.replies) =
      some [.element 1 0x35] := by decide
/-- K12. -/
theorem test_reset_running :
    nextOf (step { encoding [0x41, 0x42] 2 [0x42, 0x42, 0x38] with pending := [.reset] }) = some State.reset := by
  decide
/-- K14. -/
theorem test_unloaded_faults :
    faultOf (step { encoding [0x41, 0x42] 0 [] with ibuf := [] }) = some (.noValue .ibuf 0) := by decide
/-- A `CMD` write of more than 8 bits (log 8). -/
theorem test_wide_command : isRefused (step (idleWith [] [.wr 0 0x101])) = true := by decide
/-- `COPYBACK` reads `OUT_LEN` and plans the reads and the load (R95). -/
theorem test_copyback :
    (nextOf (step { State.reset with outLen := 2, pending := [.copyback] })).map (fun t => t.pending) =
      some [.rdb 0, .rdb 1, .reload 2] := by decide
theorem test_reload :
    (nextOf (step { State.reset with
      replies := [.element 1 0x42, .element 0 0x41, .register 3 2], pending := [.reload 2] })).map
      (fun t => t.pending) = some [.wrb 0 0x41, .wrb 1 0x42, .wr 2 2] := by decide
/-- P3: `LOADS "B~8"`, with a character outside the alphabet. -/
theorem test_loads :
    (textCodes ['B', '~', '8']).map load = some [.wrb 0 0x42, .wrb 1 0x7E, .wrb 2 0x38, .wr 2 3] ∧
    textCodes ['a', 'é'] = none := by decide
/-- R101, R102: space and colon. -/
theorem test_charCode :
    charCode ' ' = some 0x20 ∧ charCode ':' = some 0x3A ∧ charCode 'Z' = some 0x5A ∧ alphabet.length = 45 := by decide
/-- A write keeps the canonical form, also out of order. -/
theorem test_memory_canonical :
    Memory.write (Memory.write (Memory.write ([] : Buffer 8) 5 1) 2 3) 5 7 = [(2, 3), (5, 7)] ∧
    Memory.wf 10 [(2, (3 : Byte)), (5, 7)] = true ∧ Memory.wf 5 [(2, (3 : Byte)), (5, 7)] = false ∧
    Memory.wf 10 [(5, (3 : Byte)), (5, 7)] = false := by decide

/-! ## States that meet the hypotheses of the obligations -/

theorem witness_idle_inv : BlockInv (idleWith [0x41, 0x42] []) := by
  refine ⟨by decide, by decide, ?_, ?_, ?_, ?_, ?_⟩ <;> decide

/-- An `ENCODE` of three bytes: before its tail. -/
theorem witness_encTail_inv :
    BlockInv (encoding [0x12, 0x34, 0x56] 2 [0x50, 0x44, 0x32]) ∧
    (encoding [0x12, 0x34, 0x56] 2 [0x50, 0x44, 0x32]).phase = .encRun ∧
    remaining (encoding [0x12, 0x34, 0x56] 2 [0x50, 0x44, 0x32]) = 1 ∧
    Loaded (encoding [0x12, 0x34, 0x56] 2 [0x50, 0x44, 0x32]) := by
  refine ⟨⟨by decide, by decide, ?_, ?_, ?_, ?_, ?_⟩, ?_, ?_, ?_⟩ <;> decide

/-- Before its first pair. -/
theorem witness_encPair_inv :
    BlockInv (encoding [0x12, 0x34, 0x56] 0 []) ∧ remaining (encoding [0x12, 0x34, 0x56] 0 []) = 3 ∧
    Memory.read (encoding [0x12, 0x34, 0x56] 0 []).ibuf 0 = some 0x12 ∧
    Memory.read (encoding [0x12, 0x34, 0x56] 0 []).ibuf 1 = some 0x34 := by
  refine ⟨⟨by decide, by decide, ?_, ?_, ?_, ?_, ?_⟩, ?_, ?_, ?_⟩ <;> decide

/-- Before its end. -/
theorem witness_encFin_inv :
    BlockInv (encoding [0x41, 0x42] 2 [0x42, 0x42, 0x38]) ∧
    (encoding [0x41, 0x42] 2 [0x42, 0x42, 0x38]).phase = .encRun ∧
    remaining (encoding [0x41, 0x42] 2 [0x42, 0x42, 0x38]) = 0 := by
  refine ⟨⟨by decide, by decide, ?_, ?_, ?_, ?_, ?_⟩, ?_, ?_⟩ <;> decide

theorem witness_check_inv : BlockInv (checking [0x42, 0x42, 0x38] false) ∧
    (checking [0x42, 0x42, 0x38] false).status.busy = true := by
  refine ⟨⟨by decide, by decide, ?_, ?_, ?_, ?_, ?_⟩, ?_⟩ <;> decide

theorem witness_translate_inv :
    BlockInv (translating [0x42, 0x7E, 0x38] true 1 [11, 0, 0]) ∧
    (translating [0x42, 0x7E, 0x38] true 1 [11, 0, 0]).phase = .decXl ∧
    Loaded (translating [0x42, 0x7E, 0x38] true 1 [11, 0, 0]) ∧
    (translating [0x42, 0x7E, 0x38] true 1 [11, 0, 0]).pending = [] := by
  refine ⟨⟨by decide, by decide, ?_, ?_, ?_, ?_, ?_⟩, ?_, ?_, ?_⟩ <;> decide

theorem witness_decTriple_inv :
    BlockInv (emitting [0x42, 0x42, 0x38] false 0 [11, 11, 8] []) ∧
    remaining (emitting [0x42, 0x42, 0x38] false 0 [11, 11, 8] []) = 3 ∧
    Memory.read (emitting [0x42, 0x42, 0x38] false 0 [11, 11, 8] []).dbuf 0 = some 11 ∧
    Memory.read (emitting [0x42, 0x42, 0x38] false 0 [11, 11, 8] []).dbuf 1 = some 11 ∧
    Memory.read (emitting [0x42, 0x42, 0x38] false 0 [11, 11, 8] []).dbuf 2 = some 8 := by
  refine ⟨⟨by decide, by decide, ?_, ?_, ?_, ?_, ?_⟩, ?_, ?_, ?_, ?_⟩ <;> decide

theorem witness_decPair_inv :
    BlockInv (emitting [0x42, 0x42] false 0 [11, 11] []) ∧
    (emitting [0x42, 0x42] false 0 [11, 11] []).phase = .decEmit ∧
    remaining (emitting [0x42, 0x42] false 0 [11, 11] []) = 2 := by
  refine ⟨⟨by decide, by decide, ?_, ?_, ?_, ?_, ?_⟩, ?_, ?_⟩ <;> decide

theorem witness_decDrop_inv :
    BlockInv (emitting [0x42] true 0 [11] []) ∧ (emitting [0x42] true 0 [11] []).phase = .decEmit ∧
    remaining (emitting [0x42] true 0 [11] []) = 1 := by
  refine ⟨⟨by decide, by decide, ?_, ?_, ?_, ?_, ?_⟩, ?_, ?_⟩ <;> decide

theorem witness_decFin_inv :
    BlockInv (emitting [0x42, 0x42] false 2 [11, 11] [0xFA]) ∧
    (emitting [0x42, 0x42] false 2 [11, 11] [0xFA]).phase = .decEmit ∧
    remaining (emitting [0x42, 0x42] false 2 [11, 11] [0xFA]) = 0 := by
  refine ⟨⟨by decide, by decide, ?_, ?_, ?_, ?_, ?_⟩, ?_, ?_⟩ <;> decide

/-- StepRunsTheDecodedInstruction, its five clauses; NopChangesNothing; ResetPutsTheBlockInTheResetState. -/
theorem witness_step_runs :
    (checking [0x42] true).pending = [] ∧
    decoded (.phase3 (phaseCode (checking [0x42] true).phase) (remaining (checking [0x42] true))) = some .decCheck ∧
    decoded (.cmd8 3) = some .decodeIgn ∧ (idleWith [] [.wr 0 3]).pending = [.wr 0 3] ∧
    (idleWith [] [.letRun]).pending = [.letRun] ∧ (idleWith [] [.reset]).pending = [.reset] ∧
    (idleWith [] []).phase = .idle ∧ (idleWith [] []).pending = [] := by decide

/-- WordsWithoutAnInstructionAreRefusedByName and ReservedCommandWordDoesNothing: each range at its ends. -/
theorem witness_refused_words :
    refusedBy (.cmd8 4) = some (.reservedCommand 4) ∧ refusedBy (.cmd8 255) = some (.reservedCommand 255) ∧
    refusedBy (.cmd8 256) = some (.notEightBits 256) ∧ refusedBy (.phase3 5 0) = some (.unusedPhase 5) ∧
    refusedBy (.phase3 7 0) = some (.unusedPhase 7) ∧ refusedBy (.phase3 8 0) = some (.notThreeBits 8) ∧
    isRefused (step (idleWith [] [.wr 0 256])) = true ∧ isRefused (step (idleWith [] [.wr 0 255])) = false := by
  decide

/-- WordsDecodeExactlyAsTheTableSays and DecodeAndEncodeAgree. -/
theorem witness_encode_words :
    decoded (encode .decTriple) = some .decTriple ∧ Instr.decTriple.wellFormed = true ∧
    (encode .decTriple).wellFormed = true := by decide

/-- SequencerFollowsThePhaseTable: a state for each row of R88, at the boundary values of `rem`. -/
theorem witness_phase_table :
    remaining (encoding [1, 2] 0 []) = 2 ∧ remaining (encoding [1] 0 []) = 1 ∧ remaining (encoding [] 0 []) = 0 ∧
    (checking [] false).phase = .decChk ∧ (translating [0x42, 0x42] false 1 [11, 0]).phase = .decXl ∧
    remaining (emitting [0x42, 0x42, 0x38] false 0 [11, 11, 8] []) = 3 ∧
    remaining (emitting [0x42, 0x42] false 0 [11, 11] []) = 2 ∧
    remaining (emitting [0x42] true 0 [11] []) = 1 ∧ remaining (emitting [0x42] true 1 [11] []) = 0 := by decide

/-- The last clause of SequencerFollowsThePhaseTable: each phase answers a next state, and each end of DEC_CHECK and of
DEC_XLAT is met. -/
theorem witness_phase_next :
    (nextOf (step (idleWith [] []))).map (fun t => t.phase) = some .idle ∧
    (nextOf (step (encoding [1, 2] 0 []))).map (fun t => t.phase) = some .encRun ∧
    (nextOf (step (encoding [] 0 []))).map (fun t => t.phase) = some .idle ∧
    (nextOf (step (checking [] true))).map (fun t => t.phase) = some .idle ∧
    (nextOf (step (checking [0x42] false))).map (fun t => t.phase) = some .idle ∧
    (nextOf (step (checking [0x42] true))).map (fun t => t.phase) = some .decXl ∧
    (nextOf (step (translating [0x7E, 0x42] false 0 [0, 0]))).map (fun t => t.phase) = some .idle ∧
    (nextOf (step (translating [0x42, 0x42] false 0 [0, 0]))).map (fun t => t.phase) = some .decXl ∧
    (nextOf (step (translating [0x42, 0x42] false 1 [11, 0]))).map (fun t => t.phase) = some .decEmit ∧
    (nextOf (step (emitting [0x42] true 0 [11] []))).map (fun t => t.phase) = some .decEmit ∧
    (nextOf (step (emitting [0x42] true 1 [11] []))).map (fun t => t.phase) = some .idle := by decide

/-- AcceptanceHasTheCommonEffects: the least and the greatest accepted word. -/
theorem witness_acceptance :
    (idleWith [0x41] [.wr 0 1]).pending = [.wr 0 1] ∧ (idleWith [0x41] [.wr 0 1]).status.busy = false ∧
    1 / 4 = 0 ∧ 1 % 4 ≠ 0 ∧ 3 / 4 = 0 ∧ 3 % 4 ≠ 0 ∧ (idleWith [0x41] [.wr 0 3]).pending = [.wr 0 3] := by decide

/-- EncodeIsAccepted, DecodeIsAccepted, NextCommandLeavesTheErrorState (idle, with an error), CommandWhileBusyIsIgnored
(busy), BufferPortsReachIbufAndObuf. -/
theorem witness_idle_and_busy :
    ({ idleWith [0x41] [] with status := .failed .invalidCharacter } : State).status.busy = false ∧
    ({ checking [0x42] true with pending := [.wr 0 0x01] } : State).status.busy = true ∧
    ({ checking [0x42] true with pending := [.wrb 0 0x01] } : State).status.busy = true := by decide

/-- DecCheckChecksTheLength: each of its clauses at the ends of its range. -/
theorem witness_decCheck :
    (checking [] false).inLen.toNat = 0 ∧ (checking [0x42] false).inLen.toNat % 3 = 1 ∧
    (checking [0x42] false).ignr = false ∧
    ({ checking [] false with inLen := 65533 } : State).inLen.toNat % 3 = 1 ∧
    (checking [0x42] true).inLen.toNat % 3 = 1 ∧ (checking [0x42] true).ignr = true ∧
    ({ checking [] false with inLen := 65535 } : State).inLen.toNat % 3 = 0 ∧
    (checking [0x42, 0x42] false).inLen.toNat = 2 := by decide

/-- DecXlatStoresTheDigit and DecXlatOutsideTheAlphabet: a valid and an invalid character, last and inner. -/
theorem witness_decXlat :
    Memory.read (translating [0x42, 0x7E, 0x38] true 1 [11, 0, 0]).ibuf 1 = some 0x7E ∧
    (indexOf 0x7E).valid = false ∧ (indexOf 0x42).valid = true ∧
    (translating [0x42, 0x7E] true 1 [11, 0]).idx + 1 = (translating [0x42, 0x7E] true 1 [11, 0]).inLen ∧
    (translating [0x42, 0x7E, 0x38] true 1 [11, 0, 0]).idx + 1 ≠
      (translating [0x42, 0x7E, 0x38] true 1 [11, 0, 0]).inLen ∧
    (translating [0x42, 0x7E] true 1 [11, 0]).ignr = true ∧ (translating [0x42, 0x7E] false 1 [11, 0]).ignr = false := by
  decide

/-- StepFaultsOnAnElementThatHoldsNoValue: the five clauses. -/
theorem witness_faults :
    Memory.read (encoding [] 0 []).ibuf 0 = none ∧
    Memory.read (encoding [0x41] 0 []).ibuf 0 = some 0x41 ∧ Memory.read (encoding [0x41] 0 []).ibuf 1 = none ∧
    Memory.read (emitting [] false 0 [] []).dbuf 0 = none ∧
    Memory.read (emitting [] false 0 [11] []).dbuf 0 = some 11 ∧
    Memory.read (emitting [] false 0 [11] []).dbuf 1 = none ∧
    Memory.read (emitting [] false 0 [11, 12] []).dbuf 1 = some 12 ∧
    Memory.read (emitting [] false 0 [11, 12] []).dbuf 2 = none := by decide

/-- NoInstructionChangesTheInput, OnlyTheEmittingStepsWriteTheOutput, EncodeStaysInTheAlphabet: an instruction of each
kind answers a next state. -/
theorem witness_exec_next :
    (nextOf (exec .encPair (encoding [0x41, 0x42] 0 []))).isSome = true ∧
    (nextOf (exec .encTail (encoding [0x41] 0 []))).isSome = true ∧
    (nextOf (exec .decTriple (emitting [0x42, 0x42, 0x38] false 0 [11, 11, 8] []))).isSome = true ∧
    (nextOf (exec .decPair (emitting [0x42, 0x42] false 0 [11, 11] []))).isSome = true ∧
    (nextOf (exec .decCheck (checking [0x42] true))).isSome = true ∧
    (nextOf (exec .encode (idleWith [0x41] []))).isSome = true := by decide

/-- ErrorsComeOnlyFromStrictDecoding: both errors change `ERR`. -/
theorem witness_errors :
    (nextOf (exec .decCheck (checking [0x42] false))).map (fun t => t.status.err) = some .invalidLength ∧
    (nextOf (exec .decXlat (translating [0x7E, 0x42] false 0 [0, 0]))).map (fun t => t.status.err) =
      some .invalidCharacter ∧
    (checking [0x42] false).status.err = .none ∧ (translating [0x7E, 0x42] false 0 [0, 0]).status.err = .none := by decide

/-- RegisterReadsReturnTheRegisters, RegisterWritesReachCmdAndInLen, NonexistentRegistersAndElementsAreInert,
BufferPortsReachIbufAndObuf: what stands at the ends of the ranges of registers and elements. -/
theorem witness_ports :
    (nextOf (step (idleWith [] [.rd 0]))).map (fun t => t.replies) = some [.register 0 0] ∧
    (nextOf (step (idleWith [0x41] [.rd 2]))).map (fun t => t.replies) = some [.register 2 1] ∧
    (nextOf (step (idleWith [] [.rd 4]))).map (fun t => (t.replies, t.draws)) = some ([.register 4 0], 0) ∧
    (nextOf (step (idleWith [] [.rd 5]))).map (fun t => t.draws) = some 1 ∧
    (nextOf (step { checking [0x42] true with pending := [.rd 0] })).map (fun t => t.draws) = some 1 ∧
    (nextOf (step { checking [0x42] true with pending := [.rd 1] })).map (fun t => t.replies) =
      some [.register 1 0x01] ∧
    (nextOf (step (idleWith [] [.wr 4 7]))).map (fun t => t.errPos) = some 0 ∧
    (nextOf (step (idleWith [] [.wr 5 7]))).map (fun t => t.errPos) = some 0 ∧
    (nextOf (step (idleWith [] [.wrb 65534 7]))).map (fun t => t.ibuf) = some [(65534, 7)] ∧
    (nextOf (step (idleWith [] [.wrb 65535 7]))).map (fun t => t.ibuf) = some [] ∧
    (nextOf (step { State.reset with obuf := [(131071, 9)], pending := [.rdb 131071] })).map (fun t => t.replies) =
      some [.element 131071 9] ∧
    (nextOf (step (idleWith [] [.rdb 131072]))).map (fun t => t.draws) = some 1 ∧
    faultOf (step (idleWith [] [.rdb 131071])) = some (.noValue .obuf 131071) := by decide

/-- BufferPortsReachIbufAndObuf: `RDB` while busy, of an element that holds a value and of one that holds none, draws a free
value and does not fault; `WRB` while busy is ignored. -/
theorem witness_rdb_busy :
    ({ encoding [0x41, 0x42] 2 [0x42, 0x42, 0x38] with pending := [.rdb 0] } : State).status.busy = true ∧
    (nextOf (step { encoding [0x41, 0x42] 2 [0x42, 0x42, 0x38] with pending := [.rdb 0] })).map (fun t => t.draws) =
      some 1 ∧
    (nextOf (step { checking [0x42] true with pending := [.rdb 0] })).map (fun t => t.draws) = some 1 ∧
    (nextOf (step { checking [0x42] true with pending := [.wrb 0 7] })).map (fun t => t.ibuf) = some (cells [0x42]) := by
  decide

/-- LoadFillsTheInput: the empty load and one of two values; LoadsGivesTheCodesOfTheText: the first and the last
character of the alphabet. -/
theorem witness_load :
    load [] = [.wr 2 0] ∧ (idleWith [] (load [0x41, 0x42] ++ [.wr 0 1])).pending = load [0x41, 0x42] ++ [.wr 0 1] ∧
    (idleWith [] (load [0x41, 0x42])).status.busy = false ∧ ([0x41, 0x42] : List Byte).length ≤ Config.capIn ∧
    alphabet[0]? = some '0' ∧ alphabet[44]? = some ':' := by decide

theorem witness_loads :
    (∀ c, c ∈ "B~8".toList → c.toNat < 128) ∧
    loads "B~8" = some [.wrb 0 0x42, .wrb 1 0x7E, .wrb 2 0x38, .wr 2 3] := by
  refine ⟨?_, rfl⟩
  have e : "B~8".toList = ['B', '~', '8'] := rfl
  intro c hc
  rw [e] at hc
  simp at hc
  rcases hc with rfl | rfl | rfl <;> decide

/-- OnlyResetStopsARunningCommand: a busy block and moves of each port. -/
theorem witness_busy_moves :
    (nextOf (step { checking [0x42] true with pending := [.wr 0 1] })) = some (checking [0x42] true) ∧
    (nextOf (step { checking [0x42] true with pending := [.wrb 0 1] })) = some (checking [0x42] true) ∧
    HostMove.wait ≠ .reset ∧ HostMove.wait ≠ .letRun := by decide

/-- ReadsAreIdempotent, WaitPollsUntilDone. -/
theorem witness_reads :
    (idleWith [] [.rd 4, .rd 4]).pending = [.rd 4, .rd 4] ∧ (idleWith [] [.rd 4, .rd 4]).status.busy = false ∧
    Memory.read ({ State.reset with obuf := cells [0x55], pending := [.rdb 0, .rdb 0] } : State).obuf 0 = some 0x55 ∧
    ({ State.reset with status := .failed .none, pending := [.wait] } : State).status.done = true ∧
    (idleWith [] [.wait]).status.done = false ∧ (idleWith [] [.readout]).status.busy = false := by decide

/-- DutyKeepingHostIsAnswered: a loaded idle block and a move that keeps the duties, at the ends of each range. -/
theorem witness_duties :
    keepsDuties (idleWith [0x41, 0x42] []) (.wr 0 3) = true ∧ keepsDuties (idleWith [0x41, 0x42] []) (.rd 4) = true ∧
    keepsDuties (idleWith [0x41, 0x42] []) (.wr 2 65535) = true ∧
    keepsDuties (idleWith [0x41, 0x42] []) (.wrb 65534 1) = true ∧
    keepsDuties { idleWith [] [] with status := .failed .none, outLen := 1, obuf := cells [0x41] } (.rdb 0) = true ∧
    keepsDuties { idleWith [] [] with status := .failed .none, outLen := 65535 } .copyback = true ∧
    Loaded (idleWith [0x41, 0x42] []) := by decide

/-- The tables and the arithmetic unit: the ends of each range. -/
theorem witness_tables :
    (indexOf 0x3A).valid = true ∧ (indexOf 0x3B).valid = false ∧
    (charAt 0).toNat = 0x30 ∧ (charAt 9).toNat = 0x39 ∧ (charAt 10).toNat = 0x41 ∧ (charAt 35).toNat = 0x5A ∧
    mac3 15 16 32 ≤ 65535 ∧ mac2 30 5 ≤ 255 ∧ 65535 < mac3 16 16 32 ∧ mac3 44 44 44 ≤ 91124 ∧ mac2 44 44 ≤ 2024 := by
  decide

/-- EncodedGroupsStandInInputOrder, EncodeLengthLaw, EncodeStaysInTheAlphabet, DecodeLengthLaw,
IgnoredCharacterActsAsZero. -/
theorem witness_function_level :
    ([1, 2, 3] : List Byte)[2 * 0]? = some 1 ∧ ([1, 2, 3] : List Byte)[2 * 0 + 1]? = some 2 ∧
    ([1, 2, 3] : List Byte)[2 * 1]? = some 3 ∧ ([1, 2, 3] : List Byte).length = 2 * 1 + 1 ∧
    0x58 ∈ encodeBytes [1, 2, 3] ∧ decodeString [0x42, 0x42, 0x38] false = .bytes [0x41, 0x42] ∧
    ([0x42, 0x7E, 0x38] : List Byte).length % 3 ≠ 1 := by decide

/-- EncodeCommandComputesEncode, DecodeCommandComputesDecode, ResultDependsOnlyOnTheInput: an idle block with the
operands loaded and the command to come. -/
theorem witness_commands :
    (idleWith [0x41, 0x42] [.wr 0 0x01]).status.busy = false ∧
    (idleWith [0x41, 0x42] [.wr 0 0x01]).inLen.toNat = ([0x41, 0x42] : List Byte).length ∧
    (∀ i, i < 2 → Memory.read (idleWith [0x41, 0x42] [.wr 0 0x01]).ibuf i = ([0x41, 0x42] : List Byte)[i]?) ∧
    (idleWith [0x41, 0x42] [.wr 0 0x03]).pending = [.wr 0 (if true then 0x03 else 0x02)] ∧
    Loaded (idleWith [0x41, 0x42] [.wr 0 0x03]) ∧
    ({ idleWith [0x41, 0x42] [.wr 0 0x03] with obuf := cells [7] } : State).inLen =
      (idleWith [0x41, 0x42] [.wr 0 0x03]).inLen := by decide

/-- EveryCommandCompletes, LoadedSequencerNeverStops, the three StepKeeps statements: with `witness_translate_inv`, a step
of a running command answers a next state; and an unloaded one faults. -/
theorem witness_running :
    (translating [0x42, 0x7E, 0x38] true 1 [11, 0, 0]).status.busy = true ∧
    (nextOf (step (translating [0x42, 0x7E, 0x38] true 1 [11, 0, 0]))).isSome = true ∧
    faultOf (step { translating [0x42, 0x7E, 0x38] true 1 [11, 0, 0] with ibuf := [] }) = some (.noValue .ibuf 1) := by
  decide

end Sys2Proof.Tests
end

section
/-! Decoding: the words of each row of R82 and R88. -/

namespace Sys2Proof.Machine

/-- The `rem` range of each step that `ENC_RUN` selects (R88). -/
theorem eq_encStep_iff (i : Instr) (r : Nat) :
    i = encStep r ↔ (i = .encFin ∧ r = 0) ∨ (i = .encTail ∧ r = 1) ∨ (i = .encPair ∧ 2 ≤ r) := by
  rcases r with _ | _ | r <;> simp [encStep]

/-- The `rem` range of each step that `DEC_EMIT` selects (R88). -/
theorem eq_emitStep_iff (i : Instr) (r : Nat) :
    i = emitStep r ↔ (i = .decFin ∧ r = 0) ∨ (i = .decDrop ∧ r = 1) ∨ (i = .decPair ∧ r = 2) ∨
      (i = .decTriple ∧ 3 ≤ r) := by
  rcases r with _ | _ | _ | r <;> simp [emitStep]

/-- Settles O6: with the decoder's inversion for each word format and the `rem` ranges above, each row is compared with
its own words. -/
theorem wordsDecodeExactlyAsTheTableSays : Obligations.WordsDecodeExactlyAsTheTableSays := by
  intro w i
  cases w with
  | cmd8 v =>
    rw [decode_cmd8_ok]
    cases i <;> simp
  | phase3 c r =>
    rw [decode_phase3_ok, eq_encStep_iff, eq_emitStep_iff]
    cases i <;> simp [and_comm]

end Sys2Proof.Machine
end

section
/-! Arithmetic: the stored bytes of a run and of a tail (R129 to R131), for every value. -/

namespace Sys2Proof.Machine

/-- A store point keeps the low 8 bits. -/
@[simp] theorem narrow_toNat (v : Nat) : (Config.narrow v).toNat = v % 256 :=
  BitVec.toNat_ofNat v 8

@[simp] theorem split16_fst_toNat (val : Nat) : (split16 val).1.toNat = val / 256 % 256 :=
  narrow_toNat _

@[simp] theorem split16_snd_toNat (val : Nat) : (split16 val).2.toNat = val % 256 :=
  (narrow_toNat _).trans (Nat.mod_mod val 256)

@[simp] theorem trunc8_toNat (t : Nat) : (trunc8 t).toNat = t % 256 :=
  narrow_toNat t

/-- Bit 16 of a run is dropped (R130). -/
theorem split16_add_65536 (val : Nat) : split16 (val + 65536) = split16 val := by
  apply Prod.ext <;> apply BitVec.eq_of_toNat_eq
  · rw [split16_fst_toNat, split16_fst_toNat]
    omega
  · rw [split16_snd_toNat, split16_snd_toNat]
    omega

/-- Settles O41: the two bytes of a run and the byte of a tail in closed form, and the dropped bit 16, none of which
needs the upper bounds 91124 and 2024. -/
theorem outOfRangeRunsAreTruncated : Obligations.OutOfRangeRunsAreTruncated := by
  refine ⟨fun val _ => ⟨split16_fst_toNat val, split16_snd_toNat val⟩, fun val hval _ => ?_,
    fun t _ => trunc8_toNat t⟩
  have hdrop := split16_add_65536 (val - 65536)
  rwa [Nat.sub_add_cancel hval] at hdrop

end Sys2Proof.Machine
end

section
/-! The length of an encoding, at the function level and at the end of a run (R146). -/

namespace Sys2Proof.Machine

/-- The length law in the two cases of R146. -/
theorem encodeLen_eq (n : Nat) : encodeLen n = 3 * (n / 2) + (if n % 2 = 1 then 2 else 0) := by
  unfold encodeLen
  split <;> omega

theorem encodeLen_mod_three (n : Nat) : encodeLen n % 3 ≠ 1 := by
  unfold encodeLen
  omega

theorem encodeLen_le_two_mul (n : Nat) : encodeLen n ≤ 2 * n := by
  unfold encodeLen
  omega

theorem encodeBytes_length (bs : List Byte) : (encodeBytes bs).length = encodeLen bs.length := by
  induction bs using encodeBytes.induct with
  | case1 => rfl
  | case2 b => simp [encodeBytes, encodeLast_eq, encodeLen]
  | case3 b0 b1 rest ih =>
    simp only [encodeBytes, encodeChunk_eq, List.length_append, List.length_cons, List.length_nil, ih]
    unfold encodeLen
    omega

theorem SequencerInv.encodeInv {s : State} (h : SequencerInv s) (hp : s.phase = .encRun) : EncodeInv s := by
  obtain ⟨_, henc, _⟩ := h
  exact henc hp

/-- With no input left the whole input has been encoded, so `ODX` and `OUT_LEN` are both the length of its
encoding. -/
theorem EncodeInv.lengths_of_remaining_zero {s : State} (h : EncodeInv s) (hr : remaining s = 0) :
    s.odx = s.outLen ∧ s.outLen.toNat = encodeLen s.inLen.toNat := by
  obtain ⟨_, _, hle, _, hout, hodx, _⟩ := h
  have hidx : s.idx.toNat = s.inLen.toNat := le_antisymm hle (Nat.sub_eq_zero_iff_le.1 hr)
  refine ⟨BitVec.eq_of_toNat_eq ?_, hout⟩
  rw [hodx, hidx, hout]

/-- Settles O43: both halves are the closed form `encodeLen`, which the function level meets by induction on the chunks
and the machine by its invariant. -/
theorem encodeLengthLaw : Obligations.EncodeLengthLaw := by
  refine ⟨fun bs => ?_, fun s hinv hp hr => ?_⟩
  · rw [encodeBytes_length]
    exact ⟨encodeLen_eq _, encodeLen_mod_three _, fun _ => encodeLen_le_two_mul _⟩
  · rw [← encodeLen_eq]
    exact (hinv.encodeInv hp).lengths_of_remaining_zero hr

end Sys2Proof.Machine
end

section
/-! The steps of `ENCODE`: what ENC_PAIR and ENC_TAIL write to `OBUF`, and what each of the three steps leaves
unchanged (R143 to R145, R148). -/

namespace Sys2Proof.Machine

/-- ENC_PAIR writes `IDX`, `ODX` and `OBUF` only. -/
theorem encodePair_frame (s : State) (b : Byte × Byte) :
    encodePair s b = { s with idx := s.idx + 2, odx := s.odx + 3, obuf := (encodePair s b).obuf } := rfl

/-- `OBUF` after ENC_PAIR: the three digits of `pack16` at `ODX`, `ODX+1`, `ODX+2` (R143). -/
theorem encodePair_obuf (s : State) (b : Byte × Byte) :
    (encodePair s b).obuf =
      Memory.write (Memory.write (Memory.write s.obuf
        s.odx.toNat (charAt (Fin.ofNat 45 (pack16 b.1 b.2 % 45))))
        (s.odx + 1).toNat (charAt (Fin.ofNat 45 (pack16 b.1 b.2 / 45 % 45))))
        (s.odx + 2).toNat (charAt (Fin.ofNat 45 (pack16 b.1 b.2 / 2025 % 45))) := by
  simp [encodePair, digits3_eq]

/-- ENC_TAIL writes `IDX`, `ODX` and `OBUF` only. -/
theorem encodeTail_frame (s : State) (b : Byte) :
    encodeTail s b = { s with idx := s.idx + 1, odx := s.odx + 2, obuf := (encodeTail s b).obuf } := rfl

/-- `OBUF` after ENC_TAIL: the two digits of the byte at `ODX`, `ODX+1` (R144). -/
theorem encodeTail_obuf (s : State) (b : Byte) :
    (encodeTail s b).obuf =
      Memory.write (Memory.write s.obuf
        s.odx.toNat (charAt (Fin.ofNat 45 (b.toNat % 45))))
        (s.odx + 1).toNat (charAt (Fin.ofNat 45 (b.toNat / 45 % 45))) := by
  simp [encodeTail, digits2_eq]

/-- The second character of the tail in the two cases of R126. -/
theorem charAt_tail_cases (n : Nat) :
    charAt (Fin.ofNat 45 (n / 45 % 45)) = if n < 45 then charAt 0 else charAt (Fin.ofNat 45 (n / 45 % 45)) := by
  split
  · next h => rw [Nat.div_eq_of_lt h]; rfl
  · rfl

/-- An element after a write is as it was or is the value written. -/
theorem Memory.read_write_or {w : Nat} (m : Buffer w) (i a : Nat) (v : BitVec w) :
    Memory.read (Memory.write m i v) a = Memory.read m a ∨ Memory.read (Memory.write m i v) a = some v := by
  rw [Memory.read_write]
  split
  · exact .inr rfl
  · exact .inl rfl

/-- Settles O16: the three addresses differ, so each holds the character written to it, and no other is written. -/
theorem encPairEmitsThreeCharacters : Obligations.EncPairEmitsThreeCharacters := by
  intro s b0 b1 h0 h1
  have hexec := (exec_encPair_of_read s b0 b1 h0 h1).trans (congrArg _ (encodePair_frame s (b0, b1)))
  refine ⟨(encodePair s (b0, b1)).obuf, hexec, ?_⟩
  rw [encodePair_obuf]
  refine ⟨?_, ?_, Memory.read_write_same _ _ _, fun a ha0 ha1 ha2 => ?_⟩
  · rw [Memory.read_write_other _ _ _ _ (odx_ne_two _), Memory.read_write_other _ _ _ _ (odx_ne_one _),
      Memory.read_write_same, pack16]
  · rw [Memory.read_write_other _ _ _ _ (odx_one_ne_two _), Memory.read_write_same, pack16]
  · rw [Memory.read_write_other _ _ _ _ ha2, Memory.read_write_other _ _ _ _ ha1,
      Memory.read_write_other _ _ _ _ ha0]

/-- The tail is reached only with `IDX` at a chunk, so a single byte left makes `IN_LEN` odd. -/
theorem EncodeInv.inLen_odd_of_remaining_one {s : State} (h : EncodeInv s) (hr : remaining s = 1) :
    s.inLen.toNat % 2 = 1 := by
  obtain ⟨_, _, _, hchunk, _⟩ := h
  unfold remaining at hr
  omega

/-- ENC_TAIL takes the byte that is left. -/
theorem remaining_encodeTail (s : State) (b : Byte) (hr : remaining s = 1) : remaining (encodeTail s b) = 0 := by
  unfold remaining at hr
  have hidx : (s.idx + 1).toNat = s.idx.toNat + 1 := lenWord_add_one s.idx s.inLen (by omega)
  show s.inLen.toNat - (s.idx + 1).toNat = 0
  omega

/-- Settles O17: as for ENC_PAIR with two addresses; the invariant gives the parity. -/
theorem encTailEmitsTwoCharacters : Obligations.EncTailEmitsTwoCharacters := by
  refine ⟨fun s b hb => ?_,
    fun s hinv hp hr => ⟨(hinv.encodeInv hp).inLen_odd_of_remaining_one hr, fun t ht => ?_⟩⟩
  · have hexec := (exec_encTail_of_read s b hb).trans (congrArg _ (encodeTail_frame s b))
    refine ⟨(encodeTail s b).obuf, hexec, ?_⟩
    rw [encodeTail_obuf, ← charAt_tail_cases]
    refine ⟨?_, Memory.read_write_same _ _ _, fun a ha0 ha1 => ?_⟩
    · rw [Memory.read_write_other _ _ _ _ (odx_ne_one _), Memory.read_write_same]
    · rw [Memory.read_write_other _ _ _ _ ha1, Memory.read_write_other _ _ _ _ ha0]
  · obtain ⟨b, rfl⟩ := exec_cases _ s t ht
    exact ⟨hp, remaining_encodeTail s b hr⟩

/-- A command that runs has not failed (R26). -/
theorem StatusInv.err_none_of_running {s : State} (h : StatusInv s) (hp : s.phase ≠ .idle) :
    s.status.err = .none := by
  obtain ⟨hbusy, hexcl, herr⟩ := h
  by_contra hne
  exact hexcl ⟨hbusy.2 hp, herr hne⟩

/-- Settles O18: ENC_FIN is `complete`; the lengths are those of O43, and `ERR` is 0 while a command runs. -/
theorem encFinCompletes : Obligations.EncFinCompletes := by
  refine ⟨exec_encFin, fun s hstatus hinv hp hr => ⟨?_, hstatus.err_none_of_running (by simp [hp])⟩⟩
  exact ((hinv.encodeInv hp).lengths_of_remaining_zero hr).1

/-- Every character of an encoding is the character of a digit, chunk by chunk. -/
theorem charAt_of_mem_encodeBytes (bs : List Byte) (c : Byte) (hc : c ∈ encodeBytes bs) :
    ∃ i : Digit, c = charAt i := by
  induction bs using encodeBytes.induct with
  | case1 => cases hc
  | case2 b =>
    simp only [encodeBytes, encodeLast_eq, List.mem_cons, List.not_mem_nil, or_false] at hc
    obtain rfl | rfl := hc <;> exact ⟨_, rfl⟩
  | case3 b0 b1 rest ih =>
    simp only [encodeBytes, encodeChunk_eq, List.mem_append, List.mem_cons, List.not_mem_nil, or_false] at hc
    obtain (rfl | rfl | rfl) | hrest := hc
    · exact ⟨_, rfl⟩
    · exact ⟨_, rfl⟩
    · exact ⟨_, rfl⟩
    · exact ih hrest

/-- `m` differs from `m₀` only in characters of the alphabet. -/
def WritesCharacters (m₀ m : Buffer 8) : Prop :=
  ∀ a, Memory.read m a = Memory.read m₀ a ∨ ∃ d : Digit, Memory.read m a = some (charAt d)

theorem WritesCharacters.refl (m : Buffer 8) : WritesCharacters m m := fun _ => .inl rfl

/-- One more character written keeps it so. -/
theorem WritesCharacters.write {m₀ m : Buffer 8} (h : WritesCharacters m₀ m) (i : Nat) (d : Digit) :
    WritesCharacters m₀ (Memory.write m i (charAt d)) := by
  intro a
  obtain hold | hnew := Memory.read_write_or m i a (charAt d)
  · rw [hold]
    exact h a
  · exact .inr ⟨d, hnew⟩

/-- Settles O45: by induction on the chunks for the function level; for the steps, both of which write to `OBUF` only
what `charAt` gives. -/
theorem encodeStaysInTheAlphabet : Obligations.EncodeStaysInTheAlphabet := by
  refine ⟨charAt_of_mem_encodeBytes, fun i s t hi ht => ?_⟩
  show WritesCharacters s.obuf t.obuf
  obtain rfl | rfl := hi
  · obtain ⟨b, rfl⟩ := exec_cases _ s t ht
    rw [encodePair_obuf]
    exact (((WritesCharacters.refl _).write _ _).write _ _).write _ _
  · obtain ⟨b, rfl⟩ := exec_cases _ s t ht
    rw [encodeTail_obuf]
    exact ((WritesCharacters.refl _).write _ _).write _ _

end Sys2Proof.Machine
end

section
/-! The steps of `DECODE`: where DEC_CHECK and DEC_XLAT go, what DEC_TRIPLE and DEC_PAIR write to `OBUF`, and what the
invariant says when DEC_XLAT, DEC_PAIR and DEC_DROP are selected (R165 to R170). -/

namespace Sys2Proof.Machine

/-! Each way DEC_CHECK and DEC_XLAT end, under its own condition. -/

theorem checkLength_empty (s : State) (h : s.inLen.toNat = 0) :
    checkLength s = complete { s with outLen := 0 } := by
  unfold checkLength
  exact if_pos h

theorem checkLength_invalid (s : State) (h : s.inLen.toNat % 3 = 1) (hg : s.ignr = false) :
    checkLength s = raiseError .invalidLength 0 s := by
  have hne : s.inLen.toNat ≠ 0 := by omega
  unfold checkLength
  exact (if_neg hne).trans (if_pos ⟨h, hg⟩)

theorem checkLength_valid (s : State) (hne : s.inLen.toNat ≠ 0) (hok : s.inLen.toNat % 3 = 1 → s.ignr = true) :
    checkLength s =
      beginTranslate (clearDbuf { s with outLen := BitVec.ofNat Config.olenW (decodeLen s.inLen.toNat) }) := by
  have hpass : ¬ (s.inLen.toNat % 3 = 1 ∧ s.ignr = false) := fun ⟨h, hg⟩ => by simp [hok h] at hg
  unfold checkLength
  exact (if_neg hne).trans (if_neg hpass)

theorem translateCharacter_valid (s : State) (c : Byte) (hv : (indexOf c).valid = true) :
    translateCharacter s c = nextCharacter (putDbuf (indexOf c).idx s) := by
  simp [translateCharacter, hv]

theorem translateCharacter_skipped (s : State) (c : Byte) (hv : (indexOf c).valid = false) (hg : s.ignr = true) :
    translateCharacter s c = nextCharacter s := by
  simp [translateCharacter, hv, hg]

/-- Positions count from `ERRPOS_BASE = 0` (R167). -/
@[simp] theorem errorPosition_eq_idx (s : State) : errorPosition s = s.idx :=
  BitVec.add_zero s.idx

theorem translateCharacter_invalid (s : State) (c : Byte) (hv : (indexOf c).valid = false) (hg : s.ignr = false) :
    translateCharacter s c = raiseError .invalidCharacter s.idx s := by
  simp [translateCharacter, hv, hg]

/-! What the emitting steps write. -/

/-- DEC_TRIPLE writes `IDX`, `ODX` and `OBUF` only. -/
theorem emitTriple_frame (s : State) (d : DigitWord × DigitWord × DigitWord) :
    emitTriple s d = { s with idx := s.idx + 3, odx := s.odx + 2, obuf := (emitTriple s d).obuf } := rfl

/-- `OBUF` after DEC_TRIPLE: the high byte of the run at `ODX`, its low byte at `ODX+1` (R168). -/
theorem emitTriple_obuf (s : State) (d : DigitWord × DigitWord × DigitWord) :
    (emitTriple s d).obuf =
      Memory.write (Memory.write s.obuf
        s.odx.toNat (split16 (mac3 d.1 d.2.1 d.2.2)).1)
        (s.odx + 1).toNat (split16 (mac3 d.1 d.2.1 d.2.2)).2 := by
  simp [emitTriple]

/-- DEC_PAIR writes `IDX`, `ODX` and `OBUF` only. -/
theorem emitPair_frame (s : State) (d : DigitWord × DigitWord) :
    emitPair s d = { s with idx := s.idx + 2, odx := s.odx + 1, obuf := (emitPair s d).obuf } := rfl

/-- `OBUF` after DEC_PAIR: the low byte of the tail at `ODX` (R169). -/
theorem emitPair_obuf (s : State) (d : DigitWord × DigitWord) :
    (emitPair s d).obuf = Memory.write s.obuf s.odx.toNat (trunc8 (mac2 d.1 d.2)) := by
  simp [emitPair]

/-- The high byte of a run, kept to 8 bits (R130). -/
theorem split16_fst (val : Nat) : (split16 val).1 = BitVec.ofNat 8 (val / 256 % 256) :=
  narrow_mod _

/-- The low byte of a run. -/
theorem split16_snd (val : Nat) : (split16 val).2 = BitVec.ofNat 8 (val % 256) := rfl

/-- The byte of a tail, kept to 8 bits (R131). -/
theorem trunc8_eq (t : Nat) : trunc8 t = BitVec.ofNat 8 (t % 256) :=
  narrow_mod t

/-! What the invariant says of a decode that translates or emits. -/

theorem SequencerInv.translateInv {s : State} (h : SequencerInv s) (hp : s.phase = .decXl) : TranslateInv s := by
  obtain ⟨_, _, _, htranslate, _⟩ := h
  exact htranslate hp

theorem SequencerInv.emitInv {s : State} (h : SequencerInv s) (hp : s.phase = .decEmit) : EmitInv s := by
  obtain ⟨_, _, _, _, hemit⟩ := h
  exact hemit hp

theorem TranslateInv.idx_lt {s : State} (h : TranslateInv s) : s.idx.toNat < s.inLen.toNat := by
  obtain ⟨_, hlt, _⟩ := h
  exact hlt

/-- The element of the character to come is the placeholder of DEC_CHECK (R167). -/
theorem TranslateInv.placeholder {s : State} (h : TranslateInv s) : Memory.read s.dbuf s.idx.toNat = some 0 := by
  obtain ⟨_, hlt, _, hplaceholders⟩ := h
  exact hplaceholders _ hlt le_rfl

/-- A short last run is reached with `IDX` at a multiple of 3, so its length is that of the input modulo 3. -/
theorem EmitInv.inLen_mod_three {s : State} (h : EmitInv s) (hpos : 0 < remaining s) (hshort : remaining s < 3) :
    s.inLen.toNat % 3 = remaining s := by
  obtain ⟨_, _, hrun, _⟩ := h
  unfold remaining at *
  omega

/-- A length of 1 modulo 3 passed the length check under `IGNR` only (R165). -/
theorem EmitInv.ignr_of_mod_three_eq_one {s : State} (h : EmitInv s) (hmod : s.inLen.toNat % 3 = 1) :
    s.ignr = true := by
  obtain ⟨⟨_, hpolicy, _⟩, _⟩ := h
  exact hpolicy hmod

/-- DEC_PAIR takes the two digits that are left. -/
theorem remaining_emitPair (s : State) (d : DigitWord × DigitWord) (hr : remaining s = 2) :
    remaining (emitPair s d) = 0 := by
  unfold remaining at hr
  have hidx : (s.idx + 2).toNat = s.idx.toNat + 2 := lenWord_add_two s.idx s.inLen (by omega)
  show s.inLen.toNat - (s.idx + 2).toNat = 0
  omega

/-- Settles O19: one equation per end; for a length that passes, the digits are those of `zeroFill` and the output
length fits its register. -/
theorem decCheckChecksTheLength : Obligations.DecCheckChecksTheLength := by
  intro s
  rw [exec_decCheck]
  refine ⟨fun hempty => ?_, fun hmod hg => ?_, fun hne hok => ?_⟩
  · rw [checkLength_empty s hempty]
    rfl
  · rw [checkLength_invalid s hmod hg]
    rfl
  · rw [checkLength_valid s hne hok]
    refine ⟨_, Memory.zeroFill s.dbuf s.inLen.toNat, decodeLen_fits s.inLen, fun i hi => ?_, fun i hi => ?_, rfl⟩
    · rw [Memory.read_zeroFill, if_pos hi]
    · rw [Memory.read_zeroFill, if_neg (Nat.not_lt.2 hi)]

/-- Settles O20: the digit is written at `IDX` before `IDX` moves on; `IDX < IN_LEN` is in the invariant of DEC_XL. -/
theorem decXlatStoresTheDigit : Obligations.DecXlatStoresTheDigit := by
  refine ⟨fun s c hc hv => ?_, fun s hinv hp => (hinv.translateInv hp).idx_lt⟩
  rw [exec_decXlat_of_read s c hc, translateCharacter_valid s c hv]
  refine ⟨(putDbuf (indexOf c).idx s).dbuf, Memory.read_write_same _ _ _,
    fun i hi => Memory.read_write_other _ _ _ _ hi, fun hlast => ?_, fun hinner => ?_⟩
  · exact congrArg _ (nextCharacter_last (putDbuf _ s) hlast)
  · exact congrArg _ (nextCharacter_inner (putDbuf _ s) hinner)

/-- Settles O21: the policy decides between the error entry and the same advance as for a valid character, without its
write; the placeholder is in the invariant of DEC_XL. -/
theorem decXlatOutsideTheAlphabet : Obligations.DecXlatOutsideTheAlphabet := by
  refine ⟨fun s c hc hv => ?_, fun s hinv hp => (hinv.translateInv hp).placeholder⟩
  rw [exec_decXlat_of_read s c hc]
  refine ⟨fun hg => ?_, fun hg hlast => ?_, fun hg hinner => ?_⟩
  · rw [translateCharacter_invalid s c hv hg]
    rfl
  · rw [translateCharacter_skipped s c hv hg, nextCharacter_last s hlast]
  · rw [translateCharacter_skipped s c hv hg, nextCharacter_inner s hinner]

/-- Settles O22: the two addresses differ, so each holds the byte written to it, and no other is written. -/
theorem decTripleEmitsTwoBytes : Obligations.DecTripleEmitsTwoBytes := by
  intro s d0 d1 d2 h0 h1 h2
  have hexec := (exec_decTriple_of_read s d0 d1 d2 h0 h1 h2).trans (congrArg _ (emitTriple_frame s (d0, d1, d2)))
  refine ⟨(emitTriple s (d0, d1, d2)).obuf, hexec, ?_⟩
  rw [emitTriple_obuf, split16_fst, split16_snd, mac3]
  refine ⟨?_, Memory.read_write_same _ _ _, fun a ha0 ha1 => ?_⟩
  · rw [Memory.read_write_other _ _ _ _ (odx_ne_one _), Memory.read_write_same]
  · rw [Memory.read_write_other _ _ _ _ ha1, Memory.read_write_other _ _ _ _ ha0]

/-- Settles O23: as for DEC_TRIPLE with one address; the invariant gives `IN_LEN` modulo 3. -/
theorem decPairEmitsOneByte : Obligations.DecPairEmitsOneByte := by
  refine ⟨fun s d0 d1 h0 h1 => ?_, fun s hinv hp hr => ⟨?_, fun t ht => ?_⟩⟩
  · have hexec := (exec_decPair_of_read s d0 d1 h0 h1).trans (congrArg _ (emitPair_frame s (d0, d1)))
    refine ⟨(emitPair s (d0, d1)).obuf, hexec, ?_⟩
    rw [emitPair_obuf, trunc8_eq, mac2]
    exact ⟨Memory.read_write_same _ _ _, fun a ha => Memory.read_write_other _ _ _ _ ha⟩
  · rw [(hinv.emitInv hp).inLen_mod_three (by omega) (by omega), hr]
  · obtain ⟨d, rfl⟩ := exec_cases _ s t ht
    exact ⟨hp, remaining_emitPair s d hr⟩

/-- `ODX` keeps its value, to which DEC_DROP adds 0 (R170). -/
theorem advance_idx_only (k : LenWord) (s : State) : advance k 0 s = { s with idx := s.idx + k } := by
  simp [advance]

/-- Settles O24: the one digit left makes `IN_LEN` 1 modulo 3, which only `IGNR` lets through the length check. -/
theorem decDropEmitsNothing : Obligations.DecDropEmitsNothing := by
  refine ⟨fun s => ?_, fun s hinv hp hr => ?_⟩
  · rw [exec_decDrop, advance_idx_only]
  · have hemit := hinv.emitInv hp
    have hmod : s.inLen.toNat % 3 = 1 := by
      rw [hemit.inLen_mod_three (by omega) (by omega), hr]
    exact ⟨hemit.ignr_of_mod_three_eq_one hmod, hmod⟩

end Sys2Proof.Machine
end

section
/-! Control: the command port (R190 to R193), and what the host can do to a running command (R194). -/

namespace Sys2Proof.Machine

/-- A write to register 0 is a command write, made after the move is taken off the list. -/
theorem step_commandWrite (s : State) (v : Nat) (rest : List HostMove) (h : s.pending = .wr 0 v :: rest) :
    step s = writeCommand v { s with pending := rest } :=
  step_move s (.wr 0 v) rest h

/-- While busy a command write is ignored whatever its value (R193). -/
theorem writeCommand_busy (v : Nat) (s : State) (hbusy : s.status.busy = true) : writeCommand v s = .next s :=
  if_pos hbusy

/-- While idle a word that decodes is run (R191). -/
theorem writeCommand_idle (v : Nat) (i : Instr) (s : State) (hidle : s.status.busy = false)
    (hdec : decode (.cmd8 v) = .ok i) : writeCommand v s = exec i s := by
  simp [writeCommand, hidle, hdec]

/-- The command word 0x00 does nothing, busy or idle (R190). -/
theorem writeCommand_nop (s : State) : writeCommand 0x00 s = .next s := by
  cases hb : s.status.busy with
  | true => exact writeCommand_busy _ s hb
  | false => exact (writeCommand_idle _ .nop s hb rfl).trans (exec_nop s)

/-- Settles O9: the equation of `exec` and that of the command write. -/
theorem nopChangesNothing : Obligations.NopChangesNothing :=
  ⟨exec_nop, fun s rest hp => (step_commandWrite s _ rest hp).trans (writeCommand_nop _)⟩

/-- Settles O13: the busy command write, on the state without the move. -/
theorem commandWhileBusyIsIgnored : Obligations.CommandWhileBusyIsIgnored :=
  fun s v rest hbusy hp => (step_commandWrite s v rest hp).trans (writeCommand_busy v _ hbusy)

theorem startDecode_eq (ign : Bool) (s : State) : startDecode ign s = enter .decChk 0 (accept true ign s) := rfl

theorem startEncode_eq (s : State) :
    startEncode s = enter .encRun (BitVec.ofNat Config.olenW (encodeLen s.inLen.toNat)) (accept false false s) := rfl

/-- An accepted command is the common acceptance with `OPR` and `IGNR` from the word's two fields (R192), and then the
command's own `PHASE` and `OUT_LEN`, of which the decodes set the latter to 0. -/
theorem writeCommand_accepts (v : Nat) (s : State) (hidle : s.status.busy = false) (hrsv : v / 4 = 0)
    (hcmd : v % 4 ≠ 0) :
    ∃ p len, writeCommand v s = .next (enter p len (accept (cmdDec v) (cmdDec v && cmdF v) s)) ∧
      (v ≠ 1 → len = 0) := by
  obtain rfl | rfl | rfl : v = 1 ∨ v = 2 ∨ v = 3 := by omega
  · rw [writeCommand_idle _ .encode s hidle rfl, exec_encode, whenIdle_idle _ s hidle, startEncode_eq]
    exact ⟨_, _, rfl, fun h => absurd rfl h⟩
  · rw [writeCommand_idle _ .decode s hidle rfl, exec_decode, whenIdle_idle _ s hidle, startDecode_eq]
    exact ⟨_, _, rfl, fun _ => rfl⟩
  · rw [writeCommand_idle _ .decodeIgn s hidle rfl, exec_decodeIgn, whenIdle_idle _ s hidle, startDecode_eq]
    exact ⟨_, _, rfl, fun _ => rfl⟩

/-- Settles O10: each field is read off the accepted state; `OPR` and `IGNR` are the word's bits. -/
theorem acceptanceHasTheCommonEffects : Obligations.AcceptanceHasTheCommonEffects := by
  intro s v rest hp hidle _ hrsv hcmd
  obtain ⟨p, len, hwrite, hlen⟩ := writeCommand_accepts v { s with pending := rest } hidle hrsv hcmd
  refine ⟨_, (step_commandWrite s v rest hp).trans hwrite, ?_, ?_, rfl, rfl, rfl, rfl, hlen, rfl, rfl, rfl, rfl⟩
  · simp [cmdDec]
  · simp [cmdDec, cmdF]

/-! The other ports while busy (R194, R239, R240), and the moves that only read and schedule. -/

/-- While busy no register takes a write. -/
theorem writeRegister_busy (r v : Nat) (s : State) (hbusy : s.status.busy = true) :
    writeRegister r v s = .next s := by
  unfold writeRegister
  split
  · exact writeCommand_busy v s hbusy
  · rw [writeInLen, whenIdle_busy _ s hbusy]
  · rfl

theorem writeIbuf_busy (i : Nat) (v : Byte) (s : State) (hbusy : s.status.busy = true) : writeIbuf i v s = s := by
  simp [writeIbuf, hbusy]

/-- While busy a read of `OBUF` answers a free value and cannot fault. -/
theorem readObuf_busy (i : Nat) (s : State) (hbusy : s.status.busy = true) :
    readObuf i s = .next (answerFree (fun n => .element i (Config.freeElement n)) s) := by
  simp [readObuf, hbusy]

theorem waitRound_same (s : State) : SameBlock s (waitRound s) := by
  have hread := readRegister_same 1 s
  unfold waitRound
  cases s.status.done
  · exact schedule_same _ _ _ hread
  · exact hread

theorem readoutMoves_same (s : State) : SameBlock s (readoutMoves s) :=
  schedule_same _ _ _ (readRegister_same 3 s)

theorem copybackMoves_same (s : State) : SameBlock s (copybackMoves s) :=
  schedule_same _ _ _ (readRegister_same 3 s)

/-- While busy every move of the host but reset and the sequencer's turn answers, and leaves the block as it is. -/
theorem hostMove_busy_same (m : HostMove) (s : State) (hbusy : s.status.busy = true) (hreset : m ≠ .reset)
    (hrun : m ≠ .letRun) : ∃ t, hostMove m s = .next t ∧ SameBlock s t := by
  cases m with
  | rd r => exact ⟨_, rfl, readRegister_same r s⟩
  | wr r v => exact ⟨s, writeRegister_busy r v s hbusy, rfl⟩
  | wrb i v => exact ⟨s, congrArg _ (writeIbuf_busy i v s hbusy), rfl⟩
  | rdb i => exact ⟨_, readObuf_busy i s hbusy, rfl⟩
  | reset => exact absurd rfl hreset
  | letRun => exact absurd rfl hrun
  | wait => exact ⟨_, rfl, waitRound_same s⟩
  | readout => exact ⟨_, rfl, readoutMoves_same s⟩
  | copyback => exact ⟨_, rfl, copybackMoves_same s⟩
  | reload n => exact ⟨_, rfl, schedule_same _ _ _ rfl⟩

/-- Settles O34: the move is made on the state without it, which has the same block. -/
theorem onlyResetStopsARunningCommand : Obligations.OnlyResetStopsARunningCommand := by
  intro s m rest hbusy hp hreset hrun
  rw [step_move s m rest hp]
  exact hostMove_busy_same m { s with pending := rest } hbusy hreset hrun

end Sys2Proof.Machine
end

section
/-! Reset (R230, R231): the move, and the state it leaves the block in. -/

namespace Sys2Proof.Machine

/-- Reset keeps nothing of the block, whatever its state and whether a command runs or not. -/
theorem assertReset_sameBlock (s : State) : SameBlock State.reset (assertReset s) := rfl

theorem step_reset (s : State) (rest : List HostMove) (h : s.pending = .reset :: rest) :
    step s = .next (assertReset { s with pending := rest }) :=
  step_move s .reset rest h

theorem statusWord_reset : statusWord State.reset.status = 0x00 := by decide

/-- No element of the three buffers holds a value after reset (R40). -/
theorem reset_buffers_hold_nothing (i : Nat) :
    Memory.read State.reset.ibuf i = none ∧ Memory.read State.reset.obuf i = none ∧
      Memory.read State.reset.dbuf i = none :=
  ⟨Memory.read_nil i, Memory.read_nil i, Memory.read_nil i⟩

/-- Settles O1: the reset move is made on the state without it, of which it keeps only the host's own fields; the
registers after reset are those of R40, and the buffers are empty. -/
theorem resetPutsTheBlockInTheResetState : Obligations.ResetPutsTheBlockInTheResetState :=
  ⟨fun s rest h => ⟨_, step_reset s rest h, assertReset_sameBlock _⟩, statusWord_reset,
    rfl, rfl, rfl, rfl, rfl, rfl, rfl, rfl, reset_buffers_hold_nothing⟩

end Sys2Proof.Machine
end

section
/-! Kept by every step: the canonical form of the three buffers (R34 to R36). -/

namespace Sys2Proof.Machine

/-- A state with the same block differs in the model's own three fields only. -/
theorem SameBlock.exists_fields {s t : State} (h : SameBlock s t) :
    ∃ p r d, t = { s with pending := p, replies := r, draws := d } := ⟨_, _, _, h⟩

/-- Every address of the width of `ODX` is inside `OBUF` (R8, R59). -/
theorem MemoryInv.after_putObuf {s : State} (h : MemoryInv s) (k : OutWord) (v : Byte) : MemoryInv (putObuf k v s) := by
  obtain ⟨hibuf, hobuf, hdbuf⟩ := h
  exact ⟨hibuf, Memory.wf_write _ _ _ _ hobuf (outWord_lt _), hdbuf⟩

theorem MemoryInv.after_putDbuf {s : State} (h : MemoryInv s) (v : DigitWord) (hidx : s.idx.toNat < Config.capIn) :
    MemoryInv (putDbuf v s) := by
  obtain ⟨hibuf, hobuf, hdbuf⟩ := h
  exact ⟨hibuf, hobuf, Memory.wf_write _ _ _ _ hdbuf hidx⟩

/-- `IN_LEN` is at most `CAP_IN` (R8, R29). -/
theorem MemoryInv.after_clearDbuf {s : State} (h : MemoryInv s) : MemoryInv (clearDbuf s) := by
  obtain ⟨hibuf, hobuf, hdbuf⟩ := h
  exact ⟨hibuf, hobuf, Memory.wf_zeroFill _ _ _ hdbuf (Nat.le_sub_one_of_lt (lenWord_lt _))⟩

/-- Moving on to the next character writes no buffer. -/
theorem MemoryInv.after_nextCharacter {s : State} (h : MemoryInv s) : MemoryInv (nextCharacter s) := by
  unfold MemoryInv
  rw [nextCharacter_ibuf, nextCharacter_obuf, nextCharacter_dbuf]
  exact h

theorem MemoryInv.after_checkLength {s : State} (h : MemoryInv s) : MemoryInv (checkLength s) := by
  obtain ⟨_, e⟩ | ⟨_, _, e⟩ | ⟨_, _, e⟩ := checkLength_cases s <;> rw [e]
  · exact h
  · exact h
  · exact MemoryInv.after_clearDbuf (s := { s with outLen := _ }) h

/-- The character was read at `IDX`, so in canonical form `IDX` is below `CAP_IN`, and `DBUF` has that element too. -/
theorem MemoryInv.after_translateCharacter {s : State} (h : MemoryInv s) {c : Byte}
    (hc : Memory.read s.ibuf s.idx.toNat = some c) : MemoryInv (translateCharacter s c) := by
  obtain ⟨_, e⟩ | ⟨_, _, e⟩ | ⟨_, _, e⟩ := translateCharacter_cases s c <;> rw [e]
  · exact (h.after_putDbuf _ (Memory.read_wf_lt _ _ _ _ h.1 hc)).after_nextCharacter
  · exact h.after_nextCharacter
  · exact h

theorem MemoryInv.after_sequencerStep {s t : State} (h : MemoryInv s) (ht : sequencerStep s = .next t) :
    MemoryInv t := by
  obtain ⟨_, rfl⟩ | ⟨_, _, b, rfl⟩ | ⟨_, _, b, rfl⟩ | ⟨_, _, rfl⟩ | ⟨_, rfl⟩ | ⟨_, c, hc, rfl⟩ |
    ⟨_, _, d, rfl⟩ | ⟨_, _, d, rfl⟩ | ⟨_, _, rfl⟩ | ⟨_, _, rfl⟩ := sequencerStep_cases s t ht
  · exact h
  · exact ((h.after_putObuf 0 _).after_putObuf 1 _).after_putObuf 2 _
  · exact (h.after_putObuf 0 _).after_putObuf 1 _
  · exact h
  · exact h.after_checkLength
  · exact h.after_translateCharacter hc
  · exact (h.after_putObuf 0 _).after_putObuf 1 _
  · exact h.after_putObuf 0 _
  · exact h
  · exact h

/-- Settles O54: only the sequencer writes `OBUF` and `DBUF`, at addresses that the buffers have, and the host writes
`IBUF` below `CAP_IN` only. -/
theorem stepKeepsTheMemoryInvariant : Obligations.StepKeepsTheMemoryInvariant := by
  refine step_keeps MemoryInv ?_ ?_ (fun s t h => h.after_sequencerStep) (fun s h _ => ⟨h, fun _ => h⟩)
    (fun s v h _ => h) ?_
  · intro s t hsame h
    obtain ⟨p, r, d, rfl⟩ := hsame.exists_fields
    exact h
  · exact fun s => ⟨rfl, rfl, rfl⟩
  · rintro s i v ⟨hibuf, hobuf, hdbuf⟩ _ hi
    exact ⟨Memory.wf_write _ _ _ _ hibuf hi, hobuf, hdbuf⟩

end Sys2Proof.Machine
end

section
/-! The tables are inverse (R101 to R109), and so are the arithmetic unit's operations (R120 to R134). -/

namespace Sys2Proof.Machine

/-! The tables. -/

/-- Looking a character of the alphabet up gives its index back. -/
theorem indexOf_charAt (d : Digit) : indexOf (charAt d) = { valid := true, idx := BitVec.ofNat 6 d.val } := by
  revert d
  decide

/-- A valid code is the character at its own index. -/
theorem charAt_of_valid (c : Byte) (h : (indexOf c).valid = true) :
    ∃ d : Digit, (indexOf c).idx = BitVec.ofNat 6 d.val ∧ charAt d = c := by
  have hall : ∀ c : Byte, (indexOf c).valid = true →
      (indexOf c).idx = BitVec.ofNat 6 (Fin.ofNat 45 (indexOf c).idx.toNat).val ∧
        charAt (Fin.ofNat 45 (indexOf c).idx.toNat) = c := by decide
  exact ⟨_, hall c h⟩

/-- A code outside the alphabet has the index 0, the placeholder of R167. -/
theorem indexOf_idx_of_invalid (c : Byte) (h : (indexOf c).valid = false) : (indexOf c).idx = 0 := by
  unfold indexOf indexRom at *
  cases ho : ordinalOf c.toNat with
  | none => rfl
  | some i => simp [ho] at h

/-- Whatever the code, its index is a digit. -/
theorem indexOf_idx_lt (c : Byte) : (indexOf c).idx.toNat < 45 := by
  cases hv : (indexOf c).valid with
  | false => simp [indexOf_idx_of_invalid c hv]
  | true =>
    obtain ⟨d, hd, _⟩ := charAt_of_valid c hv
    rw [hd, digitWord_toNat]
    exact d.isLt

/-- Settles O38: the two lookups are inverse; the count of the valid codes is evaluated. -/
theorem alphabetIsABijection : Obligations.AlphabetIsABijection :=
  ⟨indexOf_charAt, charAt_of_valid, indexOf_idx_of_invalid, by decide⟩

/-- Settles O39: `CHAR_ROM` holds these 45 codes, entry by entry. -/
theorem alphabetOrder : Obligations.AlphabetOrder := by
  refine ⟨?_, ?_, ?_, ?_⟩ <;> decide

/-! The arithmetic unit. -/

/-- A number is the sum of its base-45 digits, below `45^3`. -/
theorem base45_sum (v : Nat) (h : v < 91125) : v % 45 + 45 * (v / 45 % 45) + 2025 * (v / 2025 % 45) = v := by
  omega

/-- The three digits of `MAC3` are its operands (R127). -/
theorem base45_digits (a b c : Nat) (ha : a < 45) (hb : b < 45) (hc : c < 45) :
    (a + 45 * b + 2025 * c) % 45 = a ∧ (a + 45 * b + 2025 * c) / 45 % 45 = b ∧
      (a + 45 * b + 2025 * c) / 2025 % 45 = c := by
  omega

/-- `MAC3` of digits in `DBUF` elements. -/
theorem mac3_digits (d0 d1 d2 : Digit) :
    mac3 (BitVec.ofNat 6 d0.val) (BitVec.ofNat 6 d1.val) (BitVec.ofNat 6 d2.val) =
      d0.val + 45 * d1.val + 2025 * d2.val := by
  simp only [mac3, digitWord_toNat]

/-- `MAC2` of digits in `DBUF` elements. -/
theorem mac2_digits (d0 d1 : Digit) :
    mac2 (BitVec.ofNat 6 d0.val) (BitVec.ofNat 6 d1.val) = d0.val + 45 * d1.val := by
  simp only [mac2, digitWord_toNat]

/-- A remainder modulo 45 is the digit it is read as. -/
theorem fin45_val (n : Nat) : (Fin.ofNat 45 (n % 45)).val = n % 45 :=
  Nat.mod_mod n 45

/-- A digit is the one read from its value. -/
theorem fin45_eq {n : Nat} {d : Digit} (h : n = d.val) : Fin.ofNat 45 n = d := by
  subst h
  exact Fin.ext (Nat.mod_eq_of_lt d.isLt)

theorem mac3_digits3 (v : Nat) (h : v < 91125) :
    mac3 (BitVec.ofNat 6 (digits3 v).1.val) (BitVec.ofNat 6 (digits3 v).2.1.val)
      (BitVec.ofNat 6 (digits3 v).2.2.val) = v := by
  rw [mac3_digits, digits3_eq]
  simp only [fin45_val]
  exact base45_sum v h

theorem digits3_mac3 (d0 d1 d2 : Digit) :
    digits3 (mac3 (BitVec.ofNat 6 d0.val) (BitVec.ofNat 6 d1.val) (BitVec.ofNat 6 d2.val)) = (d0, d1, d2) := by
  obtain ⟨h0, h1, h2⟩ := base45_digits d0.val d1.val d2.val d0.isLt d1.isLt d2.isLt
  rw [mac3_digits, digits3_eq, fin45_eq h0, fin45_eq h1, fin45_eq h2]

theorem mac2_digits2 (b : Byte) :
    mac2 (BitVec.ofNat 6 (digits2 b).1.val) (BitVec.ofNat 6 (digits2 b).2.val) = b.toNat := by
  have := b.isLt
  rw [mac2_digits, digits2_eq]
  simp only [fin45_val]
  omega

/-- Only a tail of at most 255 comes back: a larger one has lost its high bits (R131). -/
theorem digits2_mac2 (d0 d1 : Digit)
    (h : mac2 (BitVec.ofNat 6 d0.val) (BitVec.ofNat 6 d1.val) ≤ 255) :
    digits2 (BitVec.ofNat 8 (mac2 (BitVec.ofNat 6 d0.val) (BitVec.ofNat 6 d1.val))) = (d0, d1) := by
  rw [mac2_digits] at h ⊢
  have hbyte : (BitVec.ofNat 8 (d0.val + 45 * d1.val)).toNat = d0.val + 45 * d1.val := by
    rw [BitVec.toNat_ofNat]
    exact Nat.mod_eq_of_lt (by omega)
  have := d0.isLt
  have := d1.isLt
  rw [digits2_eq, hbyte, fin45_eq (d := d0) (by omega), fin45_eq (d := d1) (by omega)]

theorem pack16_lt (b0 b1 : Byte) : pack16 b0 b1 < 65536 := by
  have := b0.isLt
  have := b1.isLt
  unfold pack16
  omega

theorem split16_pack16 (b0 b1 : Byte) : split16 (pack16 b0 b1) = (b0, b1) := by
  have := b0.isLt
  have := b1.isLt
  apply Prod.ext <;> apply BitVec.eq_of_toNat_eq
  · show _ = b0.toNat
    rw [split16_fst_toNat, pack16]
    omega
  · show _ = b1.toNat
    rw [split16_snd_toNat, pack16]
    omega

/-- Settles O40: each law by the base-45 sum and digits. -/
theorem digitsAndMacAreInverse : Obligations.DigitsAndMacAreInverse :=
  ⟨fun v hv => mac3_digits3 v (by omega), fun d0 d1 d2 _ => digits3_mac3 d0 d1 d2, mac2_digits2, digits2_mac2,
    split16_pack16⟩

end Sys2Proof.Machine
end

section
/-! Kept by every step: the invariants of `STATUS` (R26) and the invariant of the sequencer, phase by phase. -/

namespace Sys2Proof.Machine

/-! The invariants of `STATUS`. -/

/-- The steps that neither end a command nor start one keep `STATUS` and stay in a phase other than `IDLE`. -/
theorem StatusInv.of_running {s t : State} (h : StatusInv s) (hs : s.phase ≠ .idle) (hstatus : t.status = s.status)
    (ht : t.phase ≠ .idle) : StatusInv t := by
  unfold StatusInv at *
  rw [hstatus]
  exact ⟨⟨fun _ => ht, fun _ => h.1.2 hs⟩, h.2⟩

theorem complete_statusInv (s : State) : StatusInv (complete s) := by
  simp [StatusInv, Status.completed]

theorem raiseError_statusInv (e : ErrKind) (p : LenWord) (s : State) : StatusInv (raiseError e p s) := by
  simp [StatusInv, Status.failed]

theorem accept_enter_statusInv (p : Phase) (hp : p ≠ .idle) (n : OutWord) (dec ign : Bool) (s : State) :
    StatusInv (enter p n (accept dec ign s)) := by
  simp [StatusInv, Status.accepted, hp]

/-- After a character the phase is `DEC_EMIT` or stays (R166, R167). -/
theorem nextCharacter_phase (s : State) :
    (nextCharacter s).phase = if s.idx + 1 = s.inLen then .decEmit else s.phase := by
  unfold nextCharacter
  split <;> rfl

theorem nextCharacter_phase_ne_idle (s : State) (h : s.phase ≠ .idle) : (nextCharacter s).phase ≠ .idle := by
  rw [nextCharacter_phase]
  split
  · decide
  · exact h

theorem StatusInv.after_sequencerStep {s t : State} (h : StatusInv s) (ht : sequencerStep s = .next t) :
    StatusInv t := by
  obtain ⟨_, rfl⟩ | ⟨hp, _, b, rfl⟩ | ⟨hp, _, b, rfl⟩ | ⟨_, _, rfl⟩ | ⟨hp, rfl⟩ | ⟨hp, c, _, rfl⟩ |
    ⟨hp, _, d, rfl⟩ | ⟨hp, _, d, rfl⟩ | ⟨hp, _, rfl⟩ | ⟨_, _, rfl⟩ := sequencerStep_cases s t ht
  · exact h
  · exact h
  · exact h
  · exact complete_statusInv s
  · obtain ⟨_, e⟩ | ⟨_, _, e⟩ | ⟨_, _, e⟩ := checkLength_cases s <;> rw [e]
    · exact complete_statusInv _
    · exact raiseError_statusInv _ _ _
    · exact h.of_running (by simp [hp]) rfl (by simp)
  · have hs : s.phase ≠ .idle := by simp [hp]
    obtain ⟨_, e⟩ | ⟨_, _, e⟩ | ⟨_, _, e⟩ := translateCharacter_cases s c <;> rw [e]
    · exact h.of_running hs (nextCharacter_status _) (nextCharacter_phase_ne_idle _ hs)
    · exact h.of_running hs (nextCharacter_status _) (nextCharacter_phase_ne_idle _ hs)
    · exact raiseError_statusInv _ _ _
  · exact h
  · exact h
  · exact h
  · exact complete_statusInv s

/-- Settles O53: the steps that change `STATUS` or enter or leave `IDLE` are acceptance, completion, error entry and
reset, after each of which the invariants hold whatever came before. -/
theorem stepKeepsTheStatusInvariant : Obligations.StepKeepsTheStatusInvariant := by
  refine step_keeps StatusInv ?_ ?_ (fun s t h => h.after_sequencerStep) ?_ (fun s v h _ => h) (fun s i v h _ _ => h)
  · intro s t hsame h
    obtain ⟨p, r, d, rfl⟩ := hsame.exists_fields
    exact h
  · exact fun s => by simp [StatusInv]
  · exact fun s _ _ =>
      ⟨accept_enter_statusInv _ (by decide) _ _ _ s, fun _ => accept_enter_statusInv _ (by decide) _ _ _ s⟩

/-! The sequencer's invariant as one condition for each phase. -/

/-- What `SequencerInv` asks of a state in phase `p`. -/
def PhaseInv : Phase → State → Prop
  | .idle => fun s => ResultInv s
  | .encRun => fun s => EncodeInv s
  | .decChk => fun s => CheckInv s
  | .decXl => fun s => TranslateInv s
  | .decEmit => fun s => EmitInv s

theorem sequencerInv_iff (s : State) : SequencerInv s ↔ PhaseInv s.phase s := by
  unfold SequencerInv
  cases s.phase <;> simp [PhaseInv]

theorem SequencerInv.of_phase {s : State} {p : Phase} (hp : s.phase = p) (h : PhaseInv p s) : SequencerInv s :=
  (sequencerInv_iff s).2 (hp.symm ▸ h)

theorem SequencerInv.phaseInv {s : State} {p : Phase} (h : SequencerInv s) (hp : s.phase = p) : PhaseInv p s :=
  hp ▸ (sequencerInv_iff s).1 h

/-! The output written so far. -/

theorem OutputReady.zero (s : State) : OutputReady 0 s := fun _ hi => absurd hi (Nat.not_lt_zero _)

/-- Writing the next element makes one more of them ready. -/
theorem OutputReady.after_putObuf {s : State} {n : Nat} (h : OutputReady n s) (k : OutWord) (v : Byte)
    (hk : (s.odx + k).toNat = n) : OutputReady (n + 1) (putObuf k v s) := by
  intro i hi
  rw [putObuf_obuf, Memory.read_write, hk]
  split
  · rfl
  · exact h i (by omega)

/-! The length laws, chunk by chunk (R146, R171). -/

theorem encodeLen_add_two (n : Nat) (h : n % 2 = 0) : encodeLen (n + 2) = encodeLen n + 3 := by
  unfold encodeLen
  omega

theorem encodeLen_add_one (n : Nat) (h : n % 2 = 0) : encodeLen (n + 1) = encodeLen n + 2 := by
  unfold encodeLen
  omega

theorem decodeLen_add_three (n : Nat) : decodeLen (n + 3) = decodeLen n + 2 := by
  unfold decodeLen
  split <;> split <;> omega

theorem decodeLen_add_two (n : Nat) (h : n % 3 = 0) : decodeLen (n + 2) = decodeLen n + 1 := by
  unfold decodeLen
  split <;> split <;> omega

theorem decodeLen_add_one (n : Nat) (h : n % 3 = 0) : decodeLen (n + 1) = decodeLen n := by
  unfold decodeLen
  split <;> split <;> omega

/-- No output of a command fills `OBUF`: `ODX` does not wrap (R59). -/
theorem encodeLen_room (x : LenWord) : encodeLen x.toNat < 2 ^ Config.olenW := by
  have := lenWord_lt x
  rw [two_pow_lenW] at this
  rw [two_pow_olenW_eq]
  unfold encodeLen
  omega

theorem decodeLen_le (n : Nat) : decodeLen n ≤ n := by
  unfold decodeLen
  split <;> omega

theorem decodeLen_room (x : LenWord) : decodeLen x.toNat < 2 ^ Config.olenW := by
  have := lenWord_lt x
  have := decodeLen_le x.toNat
  have := two_pow_olenW
  omega

/-! The steps of `ENCODE`. -/

theorem EncodeInv.after_encodePair {s : State} (h : EncodeInv s) (hr : 2 ≤ remaining s) (b : Byte × Byte) :
    EncodeInv (encodePair s b) := by
  obtain ⟨hopr, hignr, hle, hchunk, hout, hodx, hready⟩ := h
  unfold remaining at hr
  have heven : s.idx.toNat % 2 = 0 := by omega
  have hidx : (s.idx + 2).toNat = s.idx.toNat + 2 := lenWord_add_two s.idx s.inLen (by omega)
  have hlen : encodeLen (s.idx + 2).toNat = s.odx.toNat + 3 := by rw [hidx, encodeLen_add_two _ heven, hodx]
  have hroom : s.odx.toNat + 3 < 2 ^ Config.olenW := hlen ▸ encodeLen_room (s.idx + 2)
  have hodx1 : (s.odx + 1).toNat = s.odx.toNat + 1 := outWord_add_one _ (by omega)
  have hodx2 : (s.odx + 2).toNat = s.odx.toNat + 2 := outWord_add_two _ (by omega)
  have hodx3 : (s.odx + 3).toNat = s.odx.toNat + 3 := outWord_add_three _ hroom
  refine ⟨hopr, hignr, ?_, ?_, hout, ?_, ?_⟩
  · show (s.idx + 2).toNat ≤ s.inLen.toNat
    omega
  · left
    show (s.idx + 2).toNat % 2 = 0
    omega
  · exact hodx3.trans hlen.symm
  · show OutputReady (s.odx + 3).toNat _
    rw [hodx3]
    exact ((hready.after_putObuf 0 _ (by simp)).after_putObuf 1 _ hodx1).after_putObuf 2 _ hodx2

theorem EncodeInv.after_encodeTail {s : State} (h : EncodeInv s) (hr : remaining s = 1) (b : Byte) :
    EncodeInv (encodeTail s b) := by
  obtain ⟨hopr, hignr, hle, hchunk, hout, hodx, hready⟩ := h
  unfold remaining at hr
  have heven : s.idx.toNat % 2 = 0 := by omega
  have hidx : (s.idx + 1).toNat = s.idx.toNat + 1 := lenWord_add_one s.idx s.inLen (by omega)
  have hlen : encodeLen (s.idx + 1).toNat = s.odx.toNat + 2 := by rw [hidx, encodeLen_add_one _ heven, hodx]
  have hroom : s.odx.toNat + 2 < 2 ^ Config.olenW := hlen ▸ encodeLen_room (s.idx + 1)
  have hodx1 : (s.odx + 1).toNat = s.odx.toNat + 1 := outWord_add_one _ (by omega)
  have hodx2 : (s.odx + 2).toNat = s.odx.toNat + 2 := outWord_add_two _ hroom
  refine ⟨hopr, hignr, ?_, ?_, hout, ?_, ?_⟩
  · show (s.idx + 1).toNat ≤ s.inLen.toNat
    omega
  · right
    show (s.idx + 1).toNat = s.inLen.toNat
    omega
  · exact hodx2.trans hlen.symm
  · show OutputReady (s.odx + 2).toNat _
    rw [hodx2]
    exact (hready.after_putObuf 0 _ (by simp)).after_putObuf 1 _ hodx1

theorem startEncode_encodeInv (s : State) : EncodeInv (startEncode s) :=
  ⟨rfl, rfl, Nat.zero_le _, .inl rfl, encodeLen_fits s.inLen, by simp [startEncode_eq, encodeLen], OutputReady.zero _⟩

/-- At the end of a command its whole result is written (R35). -/
theorem complete_sequencerInv {s : State} (hlen : s.odx = s.outLen) (h : OutputReady s.odx.toNat s) :
    SequencerInv (complete s) :=
  .of_phase (p := .idle) rfl fun _ => hlen ▸ h

/-- An error leaves an empty result (R213). -/
theorem raiseError_sequencerInv (e : ErrKind) (p : LenWord) (s : State) : SequencerInv (raiseError e p s) :=
  .of_phase (p := .idle) rfl fun _ => OutputReady.zero _

/-! The steps of `DECODE`. -/

theorem SequencerInv.checkInv {s : State} (h : SequencerInv s) (hp : s.phase = .decChk) : CheckInv s :=
  h.phaseInv hp

theorem startDecode_checkInv (ign : Bool) (s : State) : CheckInv (startDecode ign s) := ⟨rfl, rfl, rfl, rfl⟩

/-- A length that passes the check begins the translation with all digits 0 (R165). -/
theorem CheckInv.after_beginTranslate {s : State} (h : CheckInv s) (hne : s.inLen.toNat ≠ 0)
    (hok : s.inLen.toNat % 3 = 1 → s.ignr = true) :
    TranslateInv
      (beginTranslate (clearDbuf { s with outLen := BitVec.ofNat Config.olenW (decodeLen s.inLen.toNat) })) := by
  have hzero : ∀ i, i < s.inLen.toNat → Memory.read (Memory.zeroFill s.dbuf s.inLen.toNat) i = some 0 :=
    fun i hi => by rw [Memory.read_zeroFill, if_pos hi]
  refine ⟨⟨h.1, hok, decodeLen_fits s.inLen, fun i hi => ?_⟩, Nat.pos_of_ne_zero hne, rfl, fun i hi _ => hzero i hi⟩
  exact (congrArg holdsDigit (hzero i hi)).trans rfl

theorem CheckInv.after_checkLength {s : State} (h : CheckInv s) : SequencerInv (checkLength s) := by
  obtain ⟨_, e⟩ | ⟨_, _, e⟩ | ⟨hne, hok, e⟩ := checkLength_cases s <;> rw [e]
  · exact .of_phase (p := .idle) rfl fun _ => OutputReady.zero _
  · exact raiseError_sequencerInv _ _ _
  · exact .of_phase (p := .decXl) rfl (h.after_beginTranslate hne hok)

/-- A decode whose character at `IDX` is translated: as `TranslateInv`, with the placeholders from `IDX + 1` on. -/
def TranslatedInv (s : State) : Prop :=
  CheckedInv s ∧ s.idx.toNat < s.inLen.toNat ∧ s.odx = 0 ∧
    ∀ i, i < s.inLen.toNat → s.idx.toNat < i → Memory.read s.dbuf i = some 0

theorem TranslateInv.translated {s : State} (h : TranslateInv s) : TranslatedInv s := by
  obtain ⟨hchecked, hlt, hodx, hplaceholders⟩ := h
  exact ⟨hchecked, hlt, hodx, fun i hi hidx => hplaceholders i hi hidx.le⟩

theorem TranslateInv.after_putDbuf {s : State} (h : TranslateInv s) (v : DigitWord) (hv : v.toNat < 45) :
    TranslatedInv (putDbuf v s) := by
  obtain ⟨⟨hopr, hpolicy, hout, hdigits⟩, hlt, hodx, hplaceholders⟩ := h
  refine ⟨⟨hopr, hpolicy, hout, fun i hi => ?_⟩, hlt, hodx, fun i hi hidx => ?_⟩
  · rw [putDbuf_dbuf, Memory.read_write]
    split
    · simpa [holdsDigit] using hv
    · exact hdigits i hi
  · change s.idx.toNat < i at hidx
    rw [putDbuf_dbuf, Memory.read_write_other _ _ _ _ (by omega)]
    exact hplaceholders i hi hidx.le

/-- The next character is translated, or after the last one the digits are emitted from the first on. -/
theorem TranslatedInv.after_nextCharacter {s : State} (h : TranslatedInv s) (hp : s.phase = .decXl) :
    SequencerInv (nextCharacter s) := by
  obtain ⟨hchecked, hlt, hodx, hplaceholders⟩ := h
  have hidx : (s.idx + 1).toNat = s.idx.toNat + 1 := lenWord_add_one s.idx s.inLen hlt
  by_cases hlast : s.idx + 1 = s.inLen
  · rw [nextCharacter_last s hlast]
    refine .of_phase (p := .decEmit) rfl ⟨hchecked, Nat.zero_le _, .inl rfl, ?_, ?_⟩
    · show s.odx.toNat = decodeLen 0
      rw [hodx]
      rfl
    · show OutputReady s.odx.toNat _
      rw [hodx]
      exact OutputReady.zero _
  · rw [nextCharacter_inner s hlast]
    have hne : (s.idx + 1).toNat ≠ s.inLen.toNat := fun e => hlast (BitVec.eq_of_toNat_eq e)
    refine .of_phase (p := .decXl) hp ⟨hchecked, ?_, hodx, fun i hi hle => hplaceholders i hi ?_⟩
    · show (s.idx + 1).toNat < s.inLen.toNat
      omega
    · change (s.idx + 1).toNat ≤ i at hle
      omega

theorem TranslateInv.after_translateCharacter {s : State} (h : TranslateInv s) (hp : s.phase = .decXl) (c : Byte) :
    SequencerInv (translateCharacter s c) := by
  obtain ⟨_, e⟩ | ⟨_, _, e⟩ | ⟨_, _, e⟩ := translateCharacter_cases s c <;> rw [e]
  · exact (h.after_putDbuf _ (indexOf_idx_lt c)).after_nextCharacter hp
  · exact h.translated.after_nextCharacter hp
  · exact raiseError_sequencerInv _ _ _

theorem EmitInv.after_emitTriple {s : State} (h : EmitInv s) (hr : 3 ≤ remaining s)
    (d : DigitWord × DigitWord × DigitWord) : EmitInv (emitTriple s d) := by
  obtain ⟨hchecked, hle, hrun, hodx, hready⟩ := h
  unfold remaining at hr
  have hidx : (s.idx + 3).toNat = s.idx.toNat + 3 := lenWord_add_three s.idx s.inLen (by omega)
  have hlen : decodeLen (s.idx + 3).toNat = s.odx.toNat + 2 := by rw [hidx, decodeLen_add_three, hodx]
  have hroom : s.odx.toNat + 2 < 2 ^ Config.olenW := hlen ▸ decodeLen_room (s.idx + 3)
  have hodx1 : (s.odx + 1).toNat = s.odx.toNat + 1 := outWord_add_one _ (by omega)
  have hodx2 : (s.odx + 2).toNat = s.odx.toNat + 2 := outWord_add_two _ hroom
  refine ⟨hchecked, ?_, ?_, hodx2.trans hlen.symm, ?_⟩
  · show (s.idx + 3).toNat ≤ s.inLen.toNat
    omega
  · left
    show (s.idx + 3).toNat % 3 = 0
    omega
  · show OutputReady (s.odx + 2).toNat _
    rw [hodx2]
    exact (hready.after_putObuf 0 _ (by simp)).after_putObuf 1 _ hodx1

theorem EmitInv.after_emitPair {s : State} (h : EmitInv s) (hr : remaining s = 2) (d : DigitWord × DigitWord) :
    EmitInv (emitPair s d) := by
  obtain ⟨hchecked, hle, hrun, hodx, hready⟩ := h
  unfold remaining at hr
  have hidx : (s.idx + 2).toNat = s.idx.toNat + 2 := lenWord_add_two s.idx s.inLen (by omega)
  have hlen : decodeLen (s.idx + 2).toNat = s.odx.toNat + 1 := by
    rw [hidx, decodeLen_add_two _ (by omega), hodx]
  have hroom : s.odx.toNat + 1 < 2 ^ Config.olenW := hlen ▸ decodeLen_room (s.idx + 2)
  have hodx1 : (s.odx + 1).toNat = s.odx.toNat + 1 := outWord_add_one _ hroom
  refine ⟨hchecked, ?_, ?_, hodx1.trans hlen.symm, ?_⟩
  · show (s.idx + 2).toNat ≤ s.inLen.toNat
    omega
  · right
    show (s.idx + 2).toNat = s.inLen.toNat
    omega
  · show OutputReady (s.odx + 1).toNat _
    rw [hodx1]
    exact hready.after_putObuf 0 _ (by simp)

/-- DEC_DROP drops a last digit, which the length law does not count. -/
theorem EmitInv.after_drop {s : State} (h : EmitInv s) (hr : remaining s = 1) : EmitInv (advance 1 0 s) := by
  obtain ⟨hchecked, hle, hrun, hodx, hready⟩ := h
  unfold remaining at hr
  have hidx : (s.idx + 1).toNat = s.idx.toNat + 1 := lenWord_add_one s.idx s.inLen (by omega)
  rw [advance_idx_only]
  refine ⟨hchecked, ?_, ?_, ?_, hready⟩
  · show (s.idx + 1).toNat ≤ s.inLen.toNat
    omega
  · right
    show (s.idx + 1).toNat = s.inLen.toNat
    omega
  · show s.odx.toNat = decodeLen (s.idx + 1).toNat
    rw [hidx, decodeLen_add_one _ (by omega), hodx]

/-- With no digit left the whole input has been decoded, so `ODX` and `OUT_LEN` are both the length of its decoding. -/
theorem EmitInv.lengths_of_remaining_zero {s : State} (h : EmitInv s) (hr : remaining s = 0) :
    s.odx = s.outLen ∧ s.outLen.toNat = decodeLen s.inLen.toNat := by
  obtain ⟨⟨_, _, hout, _⟩, hle, _, hodx, _⟩ := h
  have hidx : s.idx.toNat = s.inLen.toNat := le_antisymm hle (Nat.sub_eq_zero_iff_le.1 hr)
  refine ⟨BitVec.eq_of_toNat_eq ?_, hout⟩
  rw [hodx, hidx, hout]

/-! Every step. -/

theorem EncodeInv.outputReady {s : State} (h : EncodeInv s) : OutputReady s.odx.toNat s := by
  obtain ⟨_, _, _, _, _, _, hready⟩ := h
  exact hready

theorem EmitInv.outputReady {s : State} (h : EmitInv s) : OutputReady s.odx.toNat s := by
  obtain ⟨_, _, _, _, hready⟩ := h
  exact hready

theorem SequencerInv.after_sequencerStep {s t : State} (h : SequencerInv s) (ht : sequencerStep s = .next t) :
    SequencerInv t := by
  obtain ⟨_, rfl⟩ | ⟨hp, hr, b, rfl⟩ | ⟨hp, hr, b, rfl⟩ | ⟨hp, hr, rfl⟩ | ⟨hp, rfl⟩ | ⟨hp, c, _, rfl⟩ |
    ⟨hp, hr, d, rfl⟩ | ⟨hp, hr, d, rfl⟩ | ⟨hp, hr, rfl⟩ | ⟨hp, hr, rfl⟩ := sequencerStep_cases s t ht
  · exact h
  · exact .of_phase (p := .encRun) hp ((h.encodeInv hp).after_encodePair hr b)
  · exact .of_phase (p := .encRun) hp ((h.encodeInv hp).after_encodeTail hr b)
  · have henc := h.encodeInv hp
    exact complete_sequencerInv (henc.lengths_of_remaining_zero hr).1 henc.outputReady
  · exact (h.checkInv hp).after_checkLength
  · exact (h.translateInv hp).after_translateCharacter hp c
  · exact .of_phase (p := .decEmit) hp ((h.emitInv hp).after_emitTriple hr d)
  · exact .of_phase (p := .decEmit) hp ((h.emitInv hp).after_emitPair hr d)
  · exact .of_phase (p := .decEmit) hp ((h.emitInv hp).after_drop hr)
  · have hemit := h.emitInv hp
    exact complete_sequencerInv (hemit.lengths_of_remaining_zero hr).1 hemit.outputReady

/-- While idle the input may be written: the invariant of `IDLE` speaks of the result only. -/
theorem StatusInv.phase_idle {s : State} (h : StatusInv s) (hb : s.status.busy = false) : s.phase = .idle := by
  by_contra hp
  simp [h.1.2 hp] at hb

/-- Settles O55: proved together with O53, since it is the invariants of `STATUS` that keep the host from writing
`IN_LEN` in any phase but `IDLE`. -/
theorem stepKeepsTheSequencerInvariant : Obligations.StepKeepsTheSequencerInvariant := by
  intro s t hstatus hseq ht
  refine (step_keeps (fun s => StatusInv s ∧ SequencerInv s) ?_ ?_ ?_ ?_ ?_ ?_ s t ⟨hstatus, hseq⟩ ht).2
  · intro s t hsame h
    obtain ⟨p, r, d, rfl⟩ := hsame.exists_fields
    exact h
  · exact fun s => ⟨by simp [StatusInv], .of_phase (p := .idle) rfl fun h => absurd h (by simp)⟩
  · exact fun s t h ht => ⟨h.1.after_sequencerStep ht, h.2.after_sequencerStep ht⟩
  · exact fun s _ _ =>
      ⟨⟨accept_enter_statusInv _ (by decide) _ _ _ s, .of_phase (p := .encRun) rfl (startEncode_encodeInv s)⟩,
        fun ign => ⟨accept_enter_statusInv _ (by decide) _ _ _ s,
          .of_phase (p := .decChk) rfl (startDecode_checkInv ign s)⟩⟩
  · intro s v h hb
    have hidle := h.1.phase_idle hb
    exact ⟨h.1, .of_phase (p := .idle) hidle (h.2.phaseInv hidle)⟩
  · intro s i v h hb _
    have hidle := h.1.phase_idle hb
    exact ⟨h.1, .of_phase (p := .idle) hidle (h.2.phaseInv hidle)⟩

/-- Settles O2: no command, no result, and nothing in the buffers. -/
theorem resetMeetsTheInvariant : Obligations.ResetMeetsTheInvariant :=
  ⟨by simp [StatusInv, State.reset], ⟨rfl, rfl, rfl⟩, .of_phase (p := .idle) rfl fun h => absurd h (by decide)⟩

/-- Settles O25: DEC_FIN is `complete`; the lengths are those of the emitting phase's invariant, and `ERR` is 0 while a
command runs. -/
theorem decFinCompletes : Obligations.DecFinCompletes :=
  ⟨exec_decFin, fun _ hstatus hinv hp hr =>
    ⟨((hinv.emitInv hp).lengths_of_remaining_zero hr).1, hstatus.err_none_of_running (by simp [hp])⟩⟩

end Sys2Proof.Machine
end

section
/-! Decoding and the step: the words that decode to nothing (R80 to R83, R87), and the instruction that a step runs
(R88, R191). -/

namespace Sys2Proof.Machine

/-! Words without an instruction. -/

theorem decode_cmd8_reserved {v : Nat} (h4 : 4 ≤ v) (h256 : v < 256) :
    decode (.cmd8 v) = .error (.reservedCommand v) := by
  have hrsv : v / 4 ≠ 0 := by omega
  simp [decode, decodeCmd8, Nat.not_le.2 h256, hrsv]

theorem decode_cmd8_long {v : Nat} (h : 256 ≤ v) : decode (.cmd8 v) = .error (.notEightBits v) := by
  simp [decode, decodeCmd8, h]

/-- Settles O5: the decoder looks at the length of the word first, and then at its reserved bits or at the phases
there are. -/
theorem wordsWithoutAnInstructionAreRefusedByName : Obligations.WordsWithoutAnInstructionAreRefusedByName := by
  refine ⟨fun v => decode_cmd8_reserved, fun v => decode_cmd8_long, fun rem => rfl, fun code rem h5 h8 => ?_,
    fun code rem h8 => ?_⟩
  · interval_cases code <;> rfl
  · simp [decode, decodePhase3, h8]

/-- Settles O4: each word is a word of its own row by O6. -/
theorem writtenOutWordsDecode : Obligations.WrittenOutWordsDecode := by
  have hrow := wordsDecodeExactlyAsTheTableSays
  exact ⟨(hrow _ .nop).2 rfl, (hrow _ .encode).2 rfl, (hrow _ .decode).2 rfl, (hrow _ .decodeIgn).2 rfl,
    (hrow _ .encPair).2 ⟨2, le_rfl, rfl⟩, (hrow _ .decCheck).2 ⟨7, rfl⟩, (hrow _ .decXlat).2 ⟨1, rfl⟩,
    (hrow _ .decTriple).2 ⟨3, le_rfl, rfl⟩⟩

/-- Settles O7: the encoder's words are evaluated row by row; a command word decodes exactly when it is below 4, a phase
code exactly when it is one of 1 to 4. -/
theorem decodeAndEncodeAgree : Obligations.DecodeAndEncodeAgree := by
  refine ⟨fun i _ => by cases i <;> rfl, fun w => ?_⟩
  cases w with
  | cmd8 v =>
    simp only [decode_cmd8_ok, CodeWord.wellFormed, Bool.and_eq_true, decide_eq_true_eq]
    constructor
    · rintro ⟨_, h⟩
      have : v = 0 ∨ v = 1 ∨ v = 2 ∨ v = 3 := by omega
      obtain rfl | rfl | rfl | rfl := this <;> simp
    · rintro ⟨i, h⟩
      omega
  | phase3 code rem =>
    simp only [decode_phase3_ok, CodeWord.wellFormed, Bool.and_eq_true, decide_eq_true_eq]
    constructor
    · rintro ⟨⟨_, hne⟩, hle⟩
      interval_cases code <;> simp at hne ⊢
    · rintro ⟨i, h⟩
      omega

/-! The sequencer's turn. -/

theorem sequencerStep_of_decode {s : State} {i : Instr}
    (h : decode (.phase3 (phaseCode s.phase) (remaining s)) = .ok i) : sequencerStep s = exec i s := by
  simp [sequencerStep, h]

theorem step_idle {s : State} (hp : s.pending = []) (hphase : s.phase = .idle) : step s = .next s := by
  rw [step_pending_nil s hp, sequencerStep_eq, hphase]

theorem step_encRun {s : State} (hp : s.pending = []) (hphase : s.phase = .encRun) {i : Instr}
    (hi : i = encStep (remaining s)) : step s = exec i s := by
  rw [step_pending_nil s hp, sequencerStep_eq, hphase, hi]

theorem step_decChk {s : State} (hp : s.pending = []) (hphase : s.phase = .decChk) :
    step s = exec .decCheck s := by
  rw [step_pending_nil s hp, sequencerStep_eq, hphase]

theorem step_decXl {s : State} (hp : s.pending = []) (hphase : s.phase = .decXl) : step s = exec .decXlat s := by
  rw [step_pending_nil s hp, sequencerStep_eq, hphase]

theorem step_decEmit {s : State} (hp : s.pending = []) (hphase : s.phase = .decEmit) {i : Instr}
    (hi : i = emitStep (remaining s)) : step s = exec i s := by
  rw [step_pending_nil s hp, sequencerStep_eq, hphase, hi]

/-- The three ends of DEC_CHECK by `IN_LEN` and `IGNR` (R165). -/
theorem checkLength_phase (s : State) :
    (checkLength s).phase =
      if s.inLen = 0 ∨ (s.inLen.toNat % 3 = 1 ∧ s.ignr = false) then .idle else .decXl := by
  have hzero : s.inLen = 0 ↔ s.inLen.toNat = 0 := ⟨fun e => by rw [e]; rfl, fun e => BitVec.eq_of_toNat_eq e⟩
  obtain ⟨h0, e⟩ | ⟨h1, hg, e⟩ | ⟨hne, hok, e⟩ := checkLength_cases s <;> rw [e]
  · rw [if_pos (.inl (hzero.2 h0))]
    rfl
  · rw [if_pos (.inr ⟨h1, hg⟩)]
    rfl
  · rw [if_neg]
    · rfl
    · rintro (h0 | ⟨h1, hg⟩)
      · exact hne (hzero.1 h0)
      · simp [hok h1] at hg

/-- Where the translation goes on, it is with the next character or, after the last one, with the digits. -/
theorem nextCharacter_phase_cases {s : State} (hp : s.phase = .decXl) :
    (nextCharacter s).phase = .decEmit ∧ s.idx + 1 = s.inLen ∨
      (nextCharacter s).phase = .decXl ∧ s.idx + 1 ≠ s.inLen := by
  rw [nextCharacter_phase]
  split
  · next h => exact .inl ⟨rfl, h⟩
  · next h => exact .inr ⟨hp, h⟩

theorem translateCharacter_phase_cases {s : State} (hp : s.phase = .decXl) (c : Byte) :
    (translateCharacter s c).phase = .idle ∧ (translateCharacter s c).status.err = .invalidCharacter ∨
      (translateCharacter s c).phase = .decEmit ∧ s.idx + 1 = s.inLen ∨
      (translateCharacter s c).phase = .decXl ∧ s.idx + 1 ≠ s.inLen := by
  obtain ⟨_, e⟩ | ⟨_, _, e⟩ | ⟨_, _, e⟩ := translateCharacter_cases s c <;> rw [e]
  · exact .inr (nextCharacter_phase_cases (s := putDbuf _ s) hp)
  · exact .inr (nextCharacter_phase_cases hp)
  · exact .inl ⟨rfl, rfl⟩

/-- Settles O8: each row by its range of `rem`; the next phase by what the row's step does. -/
theorem sequencerFollowsThePhaseTable : Obligations.SequencerFollowsThePhaseTable := by
  intro s hp
  refine ⟨fun h hr => step_encRun hp h ((eq_encStep_iff _ _).2 (.inr (.inr ⟨rfl, hr⟩))),
    fun h hr => step_encRun hp h ((eq_encStep_iff _ _).2 (.inr (.inl ⟨rfl, hr⟩))),
    fun h hr => step_encRun hp h ((eq_encStep_iff _ _).2 (.inl ⟨rfl, hr⟩)),
    step_decChk hp, step_decXl hp,
    fun h hr => step_decEmit hp h ((eq_emitStep_iff _ _).2 (.inr (.inr (.inr ⟨rfl, hr⟩)))),
    fun h hr => step_decEmit hp h ((eq_emitStep_iff _ _).2 (.inr (.inr (.inl ⟨rfl, hr⟩)))),
    fun h hr => step_decEmit hp h ((eq_emitStep_iff _ _).2 (.inr (.inl ⟨rfl, hr⟩))),
    fun h hr => step_decEmit hp h ((eq_emitStep_iff _ _).2 (.inl ⟨rfl, hr⟩)), fun t ht => ?_⟩
  rw [step_pending_nil s hp] at ht
  obtain ⟨h, rfl⟩ | ⟨h, hr, b, rfl⟩ | ⟨h, hr, b, rfl⟩ | ⟨h, hr, rfl⟩ | ⟨h, rfl⟩ | ⟨h, c, _, rfl⟩ |
    ⟨h, hr, d, rfl⟩ | ⟨h, hr, d, rfl⟩ | ⟨h, hr, rfl⟩ | ⟨h, hr, rfl⟩ := sequencerStep_cases s t ht <;>
    simp only [h]
  · rw [if_neg (by omega)]
    exact h
  · rw [if_neg (by omega)]
    exact h
  · rw [if_pos hr]
    rfl
  · exact checkLength_phase s
  · exact translateCharacter_phase_cases h c
  · rw [if_neg (by omega)]
    exact h
  · rw [if_neg (by omega)]
    exact h
  · rw [if_neg (by omega)]
    exact h
  · rw [if_pos hr]
    rfl

/-! The command port. -/

/-- A word that decodes is run, busy or idle: an accepted command's own meaning ignores it while busy (R193). -/
theorem writeCommand_of_decode {v : Nat} {i : Instr} (s : State) (h : decode (.cmd8 v) = .ok i) :
    writeCommand v s = exec i s := by
  cases hb : s.status.busy with
  | false => exact writeCommand_idle v i s hb h
  | true =>
    rw [writeCommand_busy v s hb]
    obtain rfl | rfl | rfl | rfl := decodeCmd8_command v i h
    · rw [exec_nop]
    · rw [exec_encode, whenIdle_busy _ s hb]
    · rw [exec_decode, whenIdle_busy _ s hb]
    · rw [exec_decodeIgn, whenIdle_busy _ s hb]

/-- A word that decodes is placed as the host's next write to register 0 (log 9). -/
theorem withFetchWord_of_decode {v : Nat} {i : Instr} (s : State) (h : decode (.cmd8 v) = .ok i) :
    s.withFetchWord 8 v = { s with pending := .wr 0 v :: s.pending } := by
  have h' : decodeCmd8 v = .ok i := h
  simp [State.withFetchWord, tableCodeWord, h', placeCodeWord]

/-- Settles O3: the turn of the sequencer and the command write, each on the state without the move. -/
theorem stepRunsTheDecodedInstruction : Obligations.StepRunsTheDecodedInstruction := by
  refine ⟨fun s i hp h => ?_, fun s i rest hp h => ?_, fun s v i rest hp h => ?_, fun s v i h _ => ?_,
    fun s => step_idle⟩
  · rw [step_pending_nil s hp, sequencerStep_of_decode h]
  · exact (step_move s .letRun rest hp).trans (sequencerStep_of_decode (s := { s with pending := rest }) h)
  · rw [step_commandWrite s v rest hp, writeCommand_of_decode _ h]
  · rw [withFetchWord_of_decode s h, step_commandWrite _ v s.pending rfl, writeCommand_of_decode _ h]

/-- Settles O14: while busy every command write is ignored; while idle the decoder's reason decides. -/
theorem reservedCommandWordDoesNothing : Obligations.ReservedCommandWordDoesNothing := by
  intro s v rest hp
  rw [step_commandWrite s v rest hp]
  refine ⟨fun h4 h256 => ?_, fun h256 hidle => ?_⟩
  · unfold writeCommand
    rw [decode_cmd8_reserved h4 h256, ite_self]
  · simp [writeCommand, hidle, decode_cmd8_long h256]

/-! Acceptance (R142, R163, R192). -/

/-- Settles O11: the acceptance, with the length law of `OUT_LEN`, which fits its register. -/
theorem encodeIsAccepted : Obligations.EncodeIsAccepted := by
  intro s hidle
  refine ⟨_, encodeLen_fits s.inLen, ?_⟩
  rw [exec_encode, whenIdle_idle _ s hidle, startEncode_eq]
  rfl

/-- Settles O12: the acceptance with either policy. -/
theorem decodeIsAccepted : Obligations.DecodeIsAccepted := by
  intro s hidle
  rw [exec_decode, exec_decodeIgn, whenIdle_idle _ s hidle, whenIdle_idle _ s hidle, startDecode_eq, startDecode_eq]
  exact ⟨rfl, rfl⟩

/-- Settles O15: every command but `NOP` is accepted while idle, whatever `ERR` holds. -/
theorem nextCommandLeavesTheErrorState : Obligations.NextCommandLeavesTheErrorState := by
  intro s hidle
  refine ⟨exec_nop s, ?_⟩
  rintro i (rfl | rfl | rfl)
  · rw [exec_encode, whenIdle_idle _ s hidle, startEncode_eq]
    exact ⟨_, rfl, rfl, rfl, rfl, rfl, rfl⟩
  · rw [exec_decode, whenIdle_idle _ s hidle, startDecode_eq]
    exact ⟨_, rfl, rfl, rfl, rfl, rfl, rfl⟩
  · rw [exec_decodeIgn, whenIdle_idle _ s hidle, startDecode_eq]
    exact ⟨_, rfl, rfl, rfl, rfl, rfl, rfl⟩

end Sys2Proof.Machine
end

section
/-! What every instruction leaves unchanged (R34, R50), which instructions raise an error (R202), and which stop on an
element that holds no value (U3). -/

namespace Sys2Proof.Machine

/-- The instructions that emit output: ENC_PAIR, ENC_TAIL, DEC_TRIPLE, DEC_PAIR (R50). -/
def EmitsOutput (i : Instr) : Prop := i = .encPair ∨ i = .encTail ∨ i = .decTriple ∨ i = .decPair

/-- `t` is `s` moved on to the next chunk, with the output `m`: written by an emitting instruction `i` only, and at
`ODX`, `ODX+1`, `ODX+2` only. -/
def MovesOn (i : Instr) (s t : State) : Prop :=
  ∃ (di : LenWord) (dox : OutWord) (m : Buffer 8), t = { s with idx := s.idx + di, odx := s.odx + dox, obuf := m } ∧
    (¬ EmitsOutput i → m = s.obuf) ∧
    ∀ a, a ≠ s.odx.toNat → a ≠ (s.odx + 1).toNat → a ≠ (s.odx + 2).toNat → Memory.read m a = Memory.read s.obuf a

theorem encodePair_movesOn (s : State) (b : Byte × Byte) : MovesOn .encPair s (encodePair s b) := by
  refine ⟨2, 3, _, encodePair_frame s b, fun h => absurd (.inl rfl) h, fun a h0 h1 h2 => ?_⟩
  rw [encodePair_obuf, Memory.read_write_other _ _ _ _ h2, Memory.read_write_other _ _ _ _ h1,
    Memory.read_write_other _ _ _ _ h0]

theorem encodeTail_movesOn (s : State) (b : Byte) : MovesOn .encTail s (encodeTail s b) := by
  refine ⟨1, 2, _, encodeTail_frame s b, fun h => absurd (.inr (.inl rfl)) h, fun a h0 h1 _ => ?_⟩
  rw [encodeTail_obuf, Memory.read_write_other _ _ _ _ h1, Memory.read_write_other _ _ _ _ h0]

theorem emitTriple_movesOn (s : State) (d : DigitWord × DigitWord × DigitWord) :
    MovesOn .decTriple s (emitTriple s d) := by
  refine ⟨3, 2, _, emitTriple_frame s d, fun h => absurd (.inr (.inr (.inl rfl))) h, fun a h0 h1 _ => ?_⟩
  rw [emitTriple_obuf, Memory.read_write_other _ _ _ _ h1, Memory.read_write_other _ _ _ _ h0]

theorem emitPair_movesOn (s : State) (d : DigitWord × DigitWord) : MovesOn .decPair s (emitPair s d) := by
  refine ⟨2, 1, _, emitPair_frame s d, fun h => absurd (.inr (.inr (.inr rfl))) h, fun a h0 _ _ => ?_⟩
  rw [emitPair_obuf, Memory.read_write_other _ _ _ _ h0]

theorem drop_movesOn (s : State) : MovesOn .decDrop s (advance 1 0 s) :=
  ⟨1, 0, s.obuf, rfl, fun _ => rfl, fun _ _ _ _ => rfl⟩

/-- A command is ignored or accepted. -/
theorem whenIdle_accept {f : State → State} {s : State} (hf : ∃ p n dec ign, f s = enter p n (accept dec ign s)) :
    whenIdle f s = s ∨ ∃ p n dec ign, whenIdle f s = enter p n (accept dec ign s) := by
  obtain ⟨_, e⟩ | ⟨_, e⟩ := whenIdle_cases f s <;> rw [e]
  · exact .inl rfl
  · exact .inr hf

/-- The six kinds of instruction by the update they make: none, acceptance, completion, the length check, a
translation, and a move to the next chunk. -/
theorem exec_kinds {i : Instr} {s t : State} (h : exec i s = .next t) :
    t = s ∨ (∃ p n dec ign, t = enter p n (accept dec ign s)) ∨ t = complete s ∨
    (i = .decCheck ∧ t = checkLength s) ∨ (i = .decXlat ∧ ∃ c, t = translateCharacter s c) ∨ MovesOn i s t := by
  have hcase := exec_cases i s t h
  cases i with
  | nop => exact .inl hcase
  | encode =>
    obtain rfl : t = _ := hcase
    exact (whenIdle_accept ⟨_, _, _, _, startEncode_eq s⟩).imp_right .inl
  | decode =>
    obtain rfl : t = _ := hcase
    exact (whenIdle_accept ⟨_, _, _, _, startDecode_eq false s⟩).imp_right .inl
  | decodeIgn =>
    obtain rfl : t = _ := hcase
    exact (whenIdle_accept ⟨_, _, _, _, startDecode_eq true s⟩).imp_right .inl
  | encFin | decFin => exact .inr (.inr (.inl hcase))
  | decCheck => exact .inr (.inr (.inr (.inl ⟨rfl, hcase⟩)))
  | decXlat =>
    obtain ⟨c, _, e⟩ := hcase
    exact .inr (.inr (.inr (.inr (.inl ⟨rfl, c, e⟩))))
  | encPair =>
    obtain ⟨b, rfl⟩ := hcase
    exact .inr (.inr (.inr (.inr (.inr (encodePair_movesOn s b)))))
  | encTail =>
    obtain ⟨b, rfl⟩ := hcase
    exact .inr (.inr (.inr (.inr (.inr (encodeTail_movesOn s b)))))
  | decTriple =>
    obtain ⟨d, rfl⟩ := hcase
    exact .inr (.inr (.inr (.inr (.inr (emitTriple_movesOn s d)))))
  | decPair =>
    obtain ⟨d, rfl⟩ := hcase
    exact .inr (.inr (.inr (.inr (.inr (emitPair_movesOn s d)))))
  | decDrop =>
    obtain rfl : t = _ := hcase
    exact .inr (.inr (.inr (.inr (.inr (drop_movesOn s)))))

/-! The input and the host's side. -/

/-- `t` has the input of `s` and the model's own fields. -/
def SameInput (s t : State) : Prop :=
  t.ibuf = s.ibuf ∧ t.inLen = s.inLen ∧ t.pending = s.pending ∧ t.replies = s.replies ∧ t.draws = s.draws

theorem SameInput.refl (s : State) : SameInput s s := ⟨rfl, rfl, rfl, rfl, rfl⟩

theorem nextCharacter_sameInput (s : State) : SameInput s (nextCharacter s) :=
  ⟨nextCharacter_ibuf s, nextCharacter_inLen s, nextCharacter_pending s, nextCharacter_replies s,
    nextCharacter_draws s⟩

theorem checkLength_sameInput (s : State) : SameInput s (checkLength s) := by
  obtain ⟨_, e⟩ | ⟨_, _, e⟩ | ⟨_, _, e⟩ := checkLength_cases s <;> rw [e] <;> exact .refl s

theorem translateCharacter_sameInput (s : State) (c : Byte) : SameInput s (translateCharacter s c) := by
  obtain ⟨_, e⟩ | ⟨_, _, e⟩ | ⟨_, _, e⟩ := translateCharacter_cases s c <;> rw [e]
  · exact nextCharacter_sameInput (putDbuf _ s)
  · exact nextCharacter_sameInput s
  · exact .refl s

theorem exec_sameInput {i : Instr} {s t : State} (h : exec i s = .next t) : SameInput s t := by
  obtain rfl | ⟨p, n, dec, ign, rfl⟩ | rfl | ⟨_, rfl⟩ | ⟨_, c, rfl⟩ | ⟨_, _, _, rfl, _⟩ := exec_kinds h
  · exact .refl _
  · exact .refl s
  · exact .refl s
  · exact checkLength_sameInput s
  · exact translateCharacter_sameInput s c
  · exact .refl s

/-- Settles O27: no update that an instruction is made of names these fields. -/
theorem noInstructionChangesTheInput : Obligations.NoInstructionChangesTheInput :=
  fun _ _ _ h => exec_sameInput h

/-! The output and the digits. -/

theorem checkLength_obuf (s : State) : (checkLength s).obuf = s.obuf := by
  obtain ⟨_, e⟩ | ⟨_, _, e⟩ | ⟨_, _, e⟩ := checkLength_cases s <;> rw [e] <;> rfl

theorem translateCharacter_obuf (s : State) (c : Byte) : (translateCharacter s c).obuf = s.obuf := by
  obtain ⟨_, e⟩ | ⟨_, _, e⟩ | ⟨_, _, e⟩ := translateCharacter_cases s c <;> rw [e]
  · exact nextCharacter_obuf (putDbuf _ s)
  · exact nextCharacter_obuf s
  · rfl

theorem exec_obuf_of_not_emits {i : Instr} {s t : State} (h : exec i s = .next t) (hi : ¬ EmitsOutput i) :
    t.obuf = s.obuf := by
  obtain rfl | ⟨p, n, dec, ign, rfl⟩ | rfl | ⟨_, rfl⟩ | ⟨_, c, rfl⟩ | ⟨_, _, m, rfl, hm, _⟩ := exec_kinds h
  · rfl
  · rfl
  · rfl
  · exact checkLength_obuf s
  · exact translateCharacter_obuf s c
  · exact hm hi

theorem exec_obuf_other {i : Instr} {s t : State} (h : exec i s = .next t) {a : Nat} (h0 : a ≠ s.odx.toNat)
    (h1 : a ≠ (s.odx + 1).toNat) (h2 : a ≠ (s.odx + 2).toNat) : Memory.read t.obuf a = Memory.read s.obuf a := by
  obtain rfl | ⟨p, n, dec, ign, rfl⟩ | rfl | ⟨_, rfl⟩ | ⟨_, c, rfl⟩ | ⟨_, _, m, rfl, _, hm⟩ := exec_kinds h
  · rfl
  · rfl
  · rfl
  · rw [checkLength_obuf]
  · rw [translateCharacter_obuf]
  · exact hm a h0 h1 h2

theorem exec_dbuf {i : Instr} {s t : State} (h : exec i s = .next t) (hcheck : i ≠ .decCheck) (hxlat : i ≠ .decXlat) :
    t.dbuf = s.dbuf := by
  obtain rfl | ⟨p, n, dec, ign, rfl⟩ | rfl | ⟨hi, _⟩ | ⟨hi, _⟩ | ⟨_, _, _, rfl, _⟩ := exec_kinds h
  · rfl
  · rfl
  · rfl
  · exact absurd hi hcheck
  · exact absurd hi hxlat
  · rfl

/-- Settles O28: the frame of `OBUF` by kind of instruction and by address, and that of `DBUF`. -/
theorem onlyTheEmittingStepsWriteTheOutput : Obligations.OnlyTheEmittingStepsWriteTheOutput := by
  intro i s t h
  refine ⟨fun hpair htail htriple hpair' => exec_obuf_of_not_emits h ?_, exec_dbuf h,
    fun a h0 h1 h2 => exec_obuf_other h h0 h1 h2⟩
  simp [EmitsOutput, hpair, htail, htriple, hpair']

/-! Errors. -/

/-- An instruction keeps `ERR`, clears it, or is one of the two that raise an error, under `IGNR = 0` (R202, R212). -/
theorem exec_err_cases {i : Instr} {s t : State} (h : exec i s = .next t) :
    (t.status.err = s.status.err ∨ t.status.err = .none) ∨
    (i = .decCheck ∧ s.ignr = false ∧ t = raiseError .invalidLength 0 s) ∨
    (i = .decXlat ∧ s.ignr = false ∧ t = raiseError .invalidCharacter s.idx s) := by
  obtain rfl | ⟨p, n, dec, ign, rfl⟩ | rfl | ⟨hi, rfl⟩ | ⟨hi, c, rfl⟩ | ⟨_, _, _, rfl, _⟩ := exec_kinds h
  · exact .inl (.inl rfl)
  · exact .inl (.inr rfl)
  · exact .inl (.inl rfl)
  · obtain ⟨_, e⟩ | ⟨_, hg, e⟩ | ⟨_, _, e⟩ := checkLength_cases s <;> rw [e]
    · exact .inl (.inl rfl)
    · exact .inr (.inl ⟨hi, hg, rfl⟩)
    · exact .inl (.inl rfl)
  · obtain ⟨_, e⟩ | ⟨_, _, e⟩ | ⟨_, hg, e⟩ := translateCharacter_cases s c <;> rw [e]
    · exact .inl (.inl (by rw [nextCharacter_status, putDbuf_status]))
    · exact .inl (.inl (by rw [nextCharacter_status]))
    · exact .inr (.inr ⟨hi, hg, by rw [errorPosition_eq_idx]⟩)
  · exact .inl (.inl rfl)

/-- Settles O29: the two raising instructions end in `raiseError`. -/
theorem errorsComeOnlyFromStrictDecoding : Obligations.ErrorsComeOnlyFromStrictDecoding := by
  intro i s t h hchange hne
  obtain (hsame | hnone) | ⟨hi, hg, rfl⟩ | ⟨hi, hg, rfl⟩ := exec_err_cases h
  · exact absurd hsame hchange
  · exact absurd hnone hne
  · exact ⟨.inl ⟨hi, rfl, rfl⟩, hg, rfl, rfl, rfl, rfl, rfl⟩
  · exact ⟨.inr ⟨hi, rfl, rfl⟩, hg, rfl, rfl, rfl, rfl, rfl⟩

/-! Faults. -/

theorem ibufPair_error (s : State) (f : Fault) :
    ibufPair s = .error f ↔ ibufAt s 0 = .error f ∨ (∃ b, ibufAt s 0 = .ok b) ∧ ibufAt s 1 = .error f := by
  unfold ibufPair
  cases ibufAt s 0 <;> cases ibufAt s 1 <;> simp

theorem dbufPair_error (s : State) (f : Fault) :
    dbufPair s = .error f ↔ dbufAt s 0 = .error f ∨ (∃ d, dbufAt s 0 = .ok d) ∧ dbufAt s 1 = .error f := by
  unfold dbufPair
  cases dbufAt s 0 <;> cases dbufAt s 1 <;> simp

theorem dbufTriple_error (s : State) (f : Fault) :
    dbufTriple s = .error f ↔ dbufPair s = .error f ∨ (∃ d, dbufPair s = .ok d) ∧ dbufAt s 2 = .error f := by
  unfold dbufTriple
  cases dbufPair s <;> cases dbufAt s 2 <;> simp

theorem exec_encPair_fault (s : State) (f : Fault) : exec .encPair s = .fault f ↔ ibufPair s = .error f :=
  withOperands_fault _ _ _

theorem exec_encTail_fault (s : State) (f : Fault) : exec .encTail s = .fault f ↔ ibufAt s 0 = .error f :=
  withOperands_fault _ _ _

theorem exec_decXlat_fault (s : State) (f : Fault) : exec .decXlat s = .fault f ↔ ibufAt s 0 = .error f :=
  withOperands_fault _ _ _

theorem exec_decTriple_fault (s : State) (f : Fault) : exec .decTriple s = .fault f ↔ dbufTriple s = .error f :=
  withOperands_fault _ _ _

theorem exec_decPair_fault (s : State) (f : Fault) : exec .decPair s = .fault f ↔ dbufPair s = .error f :=
  withOperands_fault _ _ _

/-- Settles O26: the operands are read in increasing index, and the first that holds no value is the fault. -/
theorem stepFaultsOnAnElementThatHoldsNoValue : Obligations.StepFaultsOnAnElementThatHoldsNoValue := by
  intro s
  refine ⟨fun h => ?_, fun b h0 h1 => ?_, fun h => ?_, fun d h0 h1 => ?_, fun d0 d1 h0 h1 h2 => ?_⟩
  · have hread : ibufAt s 0 = .error (.noValue .ibuf s.idx.toNat) := by
      rw [ibufAt_zero]
      exact element_of_none _ h
    exact ⟨(exec_encPair_fault s _).2 ((ibufPair_error s _).2 (.inl hread)), (exec_encTail_fault s _).2 hread,
      (exec_decXlat_fault s _).2 hread⟩
  · have hread : ibufAt s 0 = .ok b := by
      rw [ibufAt_zero]
      exact element_of_read _ h0
    exact (exec_encPair_fault s _).2 ((ibufPair_error s _).2 (.inr ⟨⟨b, hread⟩, element_of_none _ h1⟩))
  · have hread : dbufAt s 0 = .error (.noValue .dbuf s.idx.toNat) := by
      rw [dbufAt_zero]
      exact element_of_none _ h
    have hpair := (dbufPair_error s _).2 (.inl hread)
    exact ⟨(exec_decTriple_fault s _).2 ((dbufTriple_error s _).2 (.inl hpair)), (exec_decPair_fault s _).2 hpair⟩
  · have hread : dbufAt s 0 = .ok d := by
      rw [dbufAt_zero]
      exact element_of_read _ h0
    have hpair := (dbufPair_error s _).2 (.inr ⟨⟨d, hread⟩, element_of_none _ h1⟩)
    exact ⟨(exec_decTriple_fault s _).2 ((dbufTriple_error s _).2 (.inl hpair)), (exec_decPair_fault s _).2 hpair⟩
  · have hread : dbufAt s 0 = .ok d0 := by
      rw [dbufAt_zero]
      exact element_of_read _ h0
    have hpair := (dbufPair_ok s d0 d1).2 ⟨hread, element_of_read _ h1⟩
    exact (exec_decTriple_fault s _).2 ((dbufTriple_error s _).2 (.inr ⟨⟨_, hpair⟩, element_of_none _ h2⟩))

end Sys2Proof.Machine
end

section
/-! Progress: with a loaded input the sequencer never stops (R36, R236), and every command completes (R86, R246). -/

namespace Sys2Proof.Machine

/-! A turn of the sequencer either is none or runs an instruction. -/

theorem sequencerStep_exec {s t : State} (h : sequencerStep s = .next t) : t = s ∨ ∃ i, exec i s = .next t := by
  unfold sequencerStep at h
  split at h
  · next i _ => exact .inr ⟨i, h⟩
  · cases h
    exact .inl rfl

theorem sequencerStep_sameInput {s t : State} (h : sequencerStep s = .next t) : SameInput s t := by
  obtain rfl | ⟨i, hi⟩ := sequencerStep_exec h
  · exact .refl _
  · exact exec_sameInput hi

theorem idx_add_zero (s : State) : (s.idx + 0).toNat = s.idx.toNat := by
  simp

/-! The digits a decode emits are there. -/

theorem dbufAt_of_ready {s : State} (h : DigitsReady s) (k : LenWord) (hk : (s.idx + k).toNat < s.inLen.toNat) :
    ∃ d, dbufAt s k = .ok d := by
  have hdigit := h _ hk
  cases hread : Memory.read s.dbuf (s.idx + k).toNat with
  | none => rw [hread] at hdigit; cases hdigit
  | some d => exact ⟨d, element_of_read _ hread⟩

theorem EmitInv.digitsReady {s : State} (h : EmitInv s) : DigitsReady s := by
  obtain ⟨⟨_, _, _, hdigits⟩, _⟩ := h
  exact hdigits

theorem EmitInv.exec_decTriple {s : State} (h : EmitInv s) (hr : 3 ≤ remaining s) :
    ∃ d, exec .decTriple s = .next (emitTriple s d) := by
  unfold remaining at hr
  have h1 : (s.idx + 1).toNat = s.idx.toNat + 1 := lenWord_add_one s.idx s.inLen (by omega)
  have h2 : (s.idx + 2).toNat = s.idx.toNat + 2 := lenWord_add_two s.idx s.inLen (by omega)
  obtain ⟨d0, e0⟩ := dbufAt_of_ready h.digitsReady 0 (by rw [idx_add_zero]; omega)
  obtain ⟨d1, e1⟩ := dbufAt_of_ready h.digitsReady 1 (by omega)
  obtain ⟨d2, e2⟩ := dbufAt_of_ready h.digitsReady 2 (by omega)
  exact ⟨_, (exec_decTriple_next s _).2 ⟨d0, d1, d2, e0, e1, e2, rfl⟩⟩

theorem EmitInv.exec_decPair {s : State} (h : EmitInv s) (hr : remaining s = 2) :
    ∃ d, exec .decPair s = .next (emitPair s d) := by
  unfold remaining at hr
  have h1 : (s.idx + 1).toNat = s.idx.toNat + 1 := lenWord_add_one s.idx s.inLen (by omega)
  obtain ⟨d0, e0⟩ := dbufAt_of_ready h.digitsReady 0 (by rw [idx_add_zero]; omega)
  obtain ⟨d1, e1⟩ := dbufAt_of_ready h.digitsReady 1 (by omega)
  exact ⟨_, (exec_decPair_next s _).2 ⟨d0, d1, e0, e1, rfl⟩⟩

/-! The only fault there can be. -/

/-- The fault names an element of the input that holds no value. -/
def MissingInput (s : State) (f : Fault) : Prop :=
  ∃ i, f = .noValue .ibuf i ∧ i < s.inLen.toNat ∧ Memory.read s.ibuf i = none

theorem ibufAt_missing {s : State} {k : LenWord} {f : Fault} (h : ibufAt s k = .error f)
    (hk : (s.idx + k).toNat < s.inLen.toNat) : MissingInput s f := by
  obtain ⟨hnone, rfl⟩ := (element_error _ _ _ _).1 h
  exact ⟨_, rfl, hk, hnone⟩

/-- The sequencer reads `IBUF` below `IN_LEN`, and of `DBUF` only what the command has written. -/
theorem SequencerInv.sequencerStep_fault {s : State} {f : Fault} (h : SequencerInv s)
    (hf : sequencerStep s = .fault f) : MissingInput s f := by
  rw [sequencerStep_eq] at hf
  cases hp : s.phase <;> rw [hp] at hf <;> simp only at hf
  case idle => cases hf
  case encRun =>
    obtain ⟨e, _⟩ | ⟨e, hr⟩ | ⟨e, hr⟩ := (eq_encStep_iff _ _).1 (Eq.refl (encStep (remaining s))) <;> rw [e] at hf
    · cases hf
    · have h0 := (exec_encTail_fault s f).1 hf
      unfold remaining at hr
      exact ibufAt_missing h0 (by rw [idx_add_zero]; omega)
    · unfold remaining at hr
      have h1 : (s.idx + 1).toNat = s.idx.toNat + 1 := lenWord_add_one s.idx s.inLen (by omega)
      obtain herr | ⟨_, herr⟩ := (ibufPair_error s f).1 ((exec_encPair_fault s f).1 hf)
      · exact ibufAt_missing herr (by rw [idx_add_zero]; omega)
      · exact ibufAt_missing herr (by omega)
  case decChk => cases hf
  case decXl =>
    have h0 := (exec_decXlat_fault s f).1 hf
    exact ibufAt_missing h0 (by rw [idx_add_zero]; exact (h.translateInv hp).idx_lt)
  case decEmit =>
    obtain ⟨e, _⟩ | ⟨e, _⟩ | ⟨e, hr⟩ | ⟨e, hr⟩ := (eq_emitStep_iff _ _).1 (Eq.refl (emitStep (remaining s))) <;>
      rw [e] at hf
    · cases hf
    · cases hf
    · obtain ⟨d, hd⟩ := (h.emitInv hp).exec_decPair hr
      rw [hd] at hf
      cases hf
    · obtain ⟨d, hd⟩ := (h.emitInv hp).exec_decTriple hr
      rw [hd] at hf
      cases hf

theorem SequencerInv.sequencerStep_next {s : State} (h : SequencerInv s) (hload : Loaded s) :
    ∃ t, sequencerStep s = .next t := by
  cases hs : sequencerStep s with
  | next t => exact ⟨t, rfl⟩
  | fault f =>
    obtain ⟨i, _, hi, hnone⟩ := h.sequencerStep_fault hs
    have hsome := hload i hi
    rw [hnone] at hsome
    cases hsome
  | refused r => exact absurd hs (sequencerStep_not_refused s r)

/-- Settles O56: the fault is excluded for a loaded input, and a refusal for every state. -/
theorem loadedSequencerNeverStops : Obligations.LoadedSequencerNeverStops := by
  refine ⟨fun s h hp hload => ?_, fun s b i h hp hf => ?_⟩
  · rw [step_pending_nil s hp]
    exact h.sequencerStep_next hload
  · rw [step_pending_nil s hp] at hf
    obtain ⟨j, e, hj, hnone⟩ := h.sequencerStep_fault hf
    cases e
    exact ⟨rfl, hj, hnone⟩

/-! The steps that are left to a command. -/

/-- How many steps the phase has before it at most: those of the chunks or characters left, and those of the phases to
come. -/
def stepsLeft (s : State) : Nat :=
  match s.phase with
  | .idle => 0
  | .encRun => (remaining s + 1) / 2 + 1
  | .decChk => s.inLen.toNat + (s.inLen.toNat + 2) / 3 + 2
  | .decXl => remaining s + (s.inLen.toNat + 2) / 3 + 1
  | .decEmit => (remaining s + 2) / 3 + 1

theorem stepsLeft_idle {s : State} (h : s.phase = .idle) : stepsLeft s = 0 := by
  unfold stepsLeft
  rw [h]

theorem stepsLeft_encRun {s : State} (h : s.phase = .encRun) : stepsLeft s = (remaining s + 1) / 2 + 1 := by
  unfold stepsLeft
  rw [h]

theorem stepsLeft_decChk {s : State} (h : s.phase = .decChk) :
    stepsLeft s = s.inLen.toNat + (s.inLen.toNat + 2) / 3 + 2 := by
  unfold stepsLeft
  rw [h]

theorem stepsLeft_decXl {s : State} (h : s.phase = .decXl) :
    stepsLeft s = remaining s + (s.inLen.toNat + 2) / 3 + 1 := by
  unfold stepsLeft
  rw [h]

theorem stepsLeft_decEmit {s : State} (h : s.phase = .decEmit) : stepsLeft s = (remaining s + 2) / 3 + 1 := by
  unfold stepsLeft
  rw [h]

/-- The bound of R86 and R246, from any phase. -/
theorem stepsLeft_le (s : State) : stepsLeft s ≤ s.inLen.toNat + s.inLen.toNat / 3 + 3 := by
  have : remaining s ≤ s.inLen.toNat := Nat.sub_le _ _
  unfold stepsLeft
  cases s.phase <;> simp only <;> omega

theorem stepsLeft_pos {s : State} (h : s.phase ≠ .idle) : 0 < stepsLeft s := by
  unfold stepsLeft
  cases hp : s.phase <;> simp only
  · exact absurd hp h
  all_goals omega

/-- An advance of `IDX` that takes what is there leaves that much less. -/
theorem remaining_advance {s t : State} (k : Nat) (hidx : t.idx = s.idx + BitVec.ofNat Config.lenW k)
    (hlen : t.inLen = s.inLen) (hr : k ≤ remaining s) (hk : 0 < k) : remaining t = remaining s - k := by
  unfold remaining at *
  rw [hidx, hlen, lenWord_add s.idx s.inLen k (by omega)]
  omega

/-- After a character there are fewer steps left. -/
theorem stepsLeft_nextCharacter {s : State} (hp : s.phase = .decXl) (hlt : s.idx.toNat < s.inLen.toNat) :
    stepsLeft (nextCharacter s) < remaining s + (s.inLen.toNat + 2) / 3 + 1 := by
  have hidx : (s.idx + 1).toNat = s.idx.toNat + 1 := lenWord_add_one s.idx s.inLen hlt
  by_cases hlast : s.idx + 1 = s.inLen
  · have hall : remaining (nextCharacter s) = s.inLen.toNat := by
      rw [nextCharacter_last s hlast]
      rfl
    rw [stepsLeft_decEmit (by rw [nextCharacter_last s hlast]), hall]
    unfold remaining
    omega
  · have hless : remaining (nextCharacter s) = remaining s - 1 := by
      rw [nextCharacter_inner s hlast]
      exact remaining_advance 1 rfl rfl (Nat.sub_pos_of_lt hlt) (by decide)
    have : 0 < remaining s := Nat.sub_pos_of_lt hlt
    rw [stepsLeft_decXl (by rw [nextCharacter_inner s hlast]; exact hp), hless, nextCharacter_inLen]
    omega

/-- Every step of a running command leaves fewer steps. -/
theorem SequencerInv.stepsLeft_lt {s t : State} (h : SequencerInv s) (hrun : s.phase ≠ .idle)
    (ht : sequencerStep s = .next t) : stepsLeft t < stepsLeft s := by
  obtain ⟨hp, _⟩ | ⟨hp, hr, b, rfl⟩ | ⟨hp, hr, b, rfl⟩ | ⟨hp, _, rfl⟩ | ⟨hp, rfl⟩ | ⟨hp, c, _, rfl⟩ |
    ⟨hp, hr, d, rfl⟩ | ⟨hp, hr, d, rfl⟩ | ⟨hp, hr, rfl⟩ | ⟨hp, _, rfl⟩ := sequencerStep_cases s t ht
  · exact absurd hp hrun
  · have hless : remaining (encodePair s b) = remaining s - 2 := remaining_advance 2 rfl rfl hr (by decide)
    rw [stepsLeft_encRun hp, stepsLeft_encRun (s := encodePair s b) hp, hless]
    omega
  · rw [stepsLeft_encRun hp, stepsLeft_encRun (s := encodeTail s b) hp, remaining_encodeTail s b hr]
    omega
  · exact stepsLeft_pos hrun
  · rw [stepsLeft_decChk hp]
    obtain ⟨_, e⟩ | ⟨_, _, e⟩ | ⟨_, _, e⟩ := checkLength_cases s <;> rw [e]
    · rw [stepsLeft_idle rfl]
      omega
    · rw [stepsLeft_idle rfl]
      omega
    · rw [stepsLeft_decXl rfl]
      show s.inLen.toNat - 0 + (s.inLen.toNat + 2) / 3 + 1 < _
      omega
  · have hlt := (h.translateInv hp).idx_lt
    rw [stepsLeft_decXl hp]
    obtain ⟨_, e⟩ | ⟨_, _, e⟩ | ⟨_, _, e⟩ := translateCharacter_cases s c <;> rw [e]
    · exact stepsLeft_nextCharacter (s := putDbuf _ s) hp hlt
    · exact stepsLeft_nextCharacter hp hlt
    · rw [stepsLeft_idle rfl]
      omega
  · have hless : remaining (emitTriple s d) = remaining s - 3 := remaining_advance 3 rfl rfl hr (by decide)
    rw [stepsLeft_decEmit hp, stepsLeft_decEmit (s := emitTriple s d) hp, hless]
    omega
  · rw [stepsLeft_decEmit hp, stepsLeft_decEmit (s := emitPair s d) hp, remaining_emitPair s d hr]
    omega
  · have hless : remaining (advance 1 0 s) = remaining s - 1 :=
      remaining_advance 1 rfl rfl (Nat.le_of_eq hr.symm) (by decide)
    rw [stepsLeft_decEmit hp, stepsLeft_decEmit (s := advance 1 0 s) hp, hless]
    omega
  · exact stepsLeft_pos hrun

/-- A command ends with `DONE = 1`: by completion or by error entry. -/
theorem sequencerStep_done {s t : State} (hrun : s.phase ≠ .idle) (ht : sequencerStep s = .next t)
    (hend : t.phase = .idle) : t.status.done = true := by
  obtain ⟨hp, _⟩ | ⟨hp, _, b, rfl⟩ | ⟨hp, _, b, rfl⟩ | ⟨_, _, rfl⟩ | ⟨_, rfl⟩ | ⟨hp, c, _, rfl⟩ |
    ⟨hp, _, d, rfl⟩ | ⟨hp, _, d, rfl⟩ | ⟨hp, _, rfl⟩ | ⟨_, _, rfl⟩ := sequencerStep_cases s t ht
  · exact absurd hp hrun
  · exact absurd hend hrun
  · exact absurd hend hrun
  · rfl
  · obtain ⟨_, e⟩ | ⟨_, _, e⟩ | ⟨_, _, e⟩ := checkLength_cases s <;> rw [e] at hend ⊢
    · rfl
    · rfl
    · cases hend
  · obtain ⟨_, e⟩ | ⟨_, _, e⟩ | ⟨_, _, e⟩ := translateCharacter_cases s c <;> rw [e] at hend ⊢
    · exact absurd hend (nextCharacter_phase_ne_idle (putDbuf _ s) hrun)
    · exact absurd hend (nextCharacter_phase_ne_idle s hrun)
    · rfl
  · exact absurd hend hrun
  · exact absurd hend hrun
  · exact absurd hend hrun
  · rfl

/-! Runs without moves of the host. -/

/-- A command that the host lets run: its input is loaded, and it has `DONE = 1` once it is over. -/
def LeftToRun (s : State) : Prop :=
  StatusInv s ∧ SequencerInv s ∧ s.pending = [] ∧ Loaded s ∧ (s.phase = .idle → s.status.done = true)

theorem LeftToRun.step_next {s : State} (h : LeftToRun s) (hrun : s.phase ≠ .idle) :
    ∃ t, step s = .next t ∧ LeftToRun t ∧ t.inLen = s.inLen ∧ stepsLeft t < stepsLeft s := by
  obtain ⟨hstatus, hseq, hp, hload, _⟩ := h
  obtain ⟨t, ht⟩ := hseq.sequencerStep_next hload
  obtain ⟨hibuf, hlen, hpending, _, _⟩ := sequencerStep_sameInput ht
  refine ⟨t, (step_pending_nil s hp).trans ht, ⟨hstatus.after_sequencerStep ht, hseq.after_sequencerStep ht,
    hpending.trans hp, ?_, sequencerStep_done hrun ht⟩, hlen, hseq.stepsLeft_lt hrun ht⟩
  unfold Loaded
  rw [hibuf, hlen]
  exact hload

theorem LeftToRun.completes {s : State} (h : LeftToRun s) {k : Nat} (hk : stepsLeft s ≤ k) :
    ∃ t, Host.Core.run core k s = .next t ∧ LeftToRun t ∧ t.phase = .idle := by
  by_cases hidle : s.phase = .idle
  · exact ⟨s, core_run_idle k s h.2.2.1 hidle, h, hidle⟩
  · induction k generalizing s with
    | zero => exact absurd hk (Nat.not_le.2 (stepsLeft_pos hidle))
    | succ k ih =>
      obtain ⟨t, ht, hnext, _, hless⟩ := h.step_next hidle
      rw [core_run_step k s t ht]
      by_cases hend : t.phase = .idle
      · exact ⟨t, core_run_idle k t hnext.2.2.1 hend, hnext, hend⟩
      · exact ih hnext (by omega) hend

/-- Settles O57: by the number of steps left, which every step lowers. -/
theorem everyCommandCompletes : Obligations.EveryCommandCompletes := by
  intro s hstatus hseq hbusy hp hload
  have hrun : s.phase ≠ .idle := hstatus.1.1 hbusy
  obtain ⟨t, ht, hend, hidle⟩ :=
    LeftToRun.completes (s := s) ⟨hstatus, hseq, hp, hload, fun h => absurd h hrun⟩ (stepsLeft_le s)
  obtain ⟨⟨hbusy', _⟩, _, _, _, hdone⟩ := hend
  exact ⟨t, ht, hdone hidle, by by_contra hb; exact hbusy'.1 (by simpa using hb) hidle, hidle⟩

end Sys2Proof.Machine
end

section
/-! The ports (R195 to R198, R58, R239 to R241), reads (R62), the polling moves (R95), and a host that keeps its duties
(R244). -/

namespace Sys2Proof.Machine

/-! The register port. -/

theorem definedRegister_idle {s : State} (hidle : s.status.busy = false) (r : Nat) :
    definedRegister s r = registerValue s r := by
  simp [definedRegister, hidle]

theorem definedRegister_busy {s : State} (hbusy : s.status.busy = true) {r : Nat} (hr : r ≠ 1) :
    definedRegister s r = none := by
  simp [definedRegister, hbusy, hr]

/-- `STATUS` is defined, busy or not. -/
theorem definedRegister_status (s : State) :
    definedRegister s 1 = some ((statusWord s.status).setWidth Config.olenW) := by
  simp [definedRegister, registerValue]

theorem registerValue_absent (s : State) {r : Nat} (hr : 5 ≤ r) : registerValue s r = none := by
  obtain ⟨k, rfl⟩ := Nat.exists_eq_add_of_le' hr
  rfl

/-- The five registers there are (R195). -/
theorem registerValue_present (s : State) {r : Nat} (hr : r ≤ 4) : ∃ v, registerValue s r = some v := by
  interval_cases r <;> exact ⟨_, rfl⟩

theorem readRegister_of_some {s : State} {r : Nat} {v : OutWord} (h : definedRegister s r = some v) :
    readRegister r s = answer (.register r v) s := by
  simp [readRegister, h]

theorem readRegister_of_none {s : State} {r : Nat} (h : definedRegister s r = none) :
    readRegister r s = answerFree (fun n => .register r (Config.freeRegister n)) s := by
  simp [readRegister, h]

theorem step_readRegister {s : State} {r : Nat} {rest : List HostMove} (h : s.pending = .rd r :: rest) :
    step s = .next (readRegister r { s with pending := rest }) :=
  step_move s (.rd r) rest h

/-- A read of a register that has a defined value. -/
theorem step_readRegister_of_some {s : State} {r : Nat} {rest : List HostMove} (h : s.pending = .rd r :: rest)
    {v : OutWord} (hv : definedRegister s r = some v) :
    step s = .next { s with pending := rest, replies := .register r v :: s.replies } := by
  rw [step_readRegister h, readRegister_of_some (s := { s with pending := rest }) hv]
  rfl

/-- A read of a register that has none. -/
theorem step_readRegister_of_none {s : State} {r : Nat} {rest : List HostMove} (h : s.pending = .rd r :: rest)
    (hv : definedRegister s r = none) :
    step s = .next
      { s with
        pending := rest, replies := .register r (Config.freeRegister s.draws) :: s.replies, draws := s.draws + 1 } := by
  rw [step_readRegister h, readRegister_of_none (s := { s with pending := rest }) hv]
  rfl

/-- The word of `STATUS` as a sum: `BUSY` is bit 0, `DONE` bit 1, `ERR` bits 3:2 (R25). -/
theorem statusWord_sum (f : Status) :
    (statusWord f).setWidth Config.olenW =
      BitVec.ofNat Config.olenW
        ((if f.busy then 1 else 0) + (if f.done then 2 else 0) + 4 * (errCode f.err).toNat) := by
  obtain ⟨busy, done, err⟩ := f
  cases busy <;> cases done <;> cases err <;> rfl

/-- Settles O30: which registers are defined while idle and while busy. -/
theorem registerReadsReturnTheRegisters : Obligations.RegisterReadsReturnTheRegisters := by
  intro s r rest hp
  refine ⟨?_, ?_, ?_, ?_, ?_, fun hbusy hr => ⟨_, step_readRegister_of_none hp (definedRegister_busy hbusy hr)⟩⟩
  · rintro rfl
    rw [step_readRegister_of_some hp (definedRegister_status s), statusWord_sum]
    cases s.status.err <;> rfl
  · rintro hidle rfl
    exact step_readRegister_of_some hp (definedRegister_idle hidle 0)
  · rintro hidle rfl
    rw [BitVec.ofNat_toNat]
    exact step_readRegister_of_some hp (definedRegister_idle hidle 2)
  · rintro hidle rfl
    exact step_readRegister_of_some hp (definedRegister_idle hidle 3)
  · rintro hidle rfl
    rw [BitVec.ofNat_toNat]
    exact step_readRegister_of_some hp (definedRegister_idle hidle 4)

theorem step_writeRegister {s : State} {r v : Nat} {rest : List HostMove} (h : s.pending = .wr r v :: rest) :
    step s = writeRegister r v { s with pending := rest } :=
  step_move s (.wr r v) rest h

/-- Only `CMD` and `IN_LEN` take a write (R196, R197). -/
theorem writeRegister_other (r v : Nat) (s : State) (h0 : r ≠ 0) (h2 : r ≠ 2) : writeRegister r v s = .next s := by
  unfold writeRegister
  split
  · exact absurd rfl h0
  · exact absurd rfl h2
  · rfl

theorem writeInLen_idle {s : State} (hidle : s.status.busy = false) (v : Nat) :
    writeInLen v s = { s with inLen := BitVec.ofNat Config.lenW v } :=
  whenIdle_idle _ s hidle

/-- What holds of a state and of the state after a write holds after a write that is ignored while busy. -/
theorem whenIdle_of {P : State → Prop} {f : State → State} {s : State} (hs : P s) (hf : P (f s)) :
    P (whenIdle f s) := by
  obtain ⟨_, e⟩ | ⟨_, e⟩ := whenIdle_cases f s <;> rw [e]
  · exact hs
  · exact hf

/-- A write of `IN_LEN` while idle. -/
theorem step_writeInLen {s : State} {v : Nat} {rest : List HostMove} (h : s.pending = .wr 2 v :: rest)
    (hidle : s.status.busy = false) :
    step s = .next { s with pending := rest, inLen := BitVec.ofNat Config.lenW v } :=
  (step_writeRegister h).trans (congrArg _ (writeInLen_idle (s := { s with pending := rest }) hidle v))

/-- A command write raises no error: the commands are not among the instructions that do. -/
theorem writeCommand_err {v : Nat} {s t : State} (h : writeCommand v s = .next t) :
    t.status.err = s.status.err ∨ t.status.err = .none := by
  obtain ⟨_, e⟩ | ⟨_, i, hi, e⟩ | ⟨_, _, e⟩ | ⟨_, _, e⟩ := writeCommand_cases v s <;> rw [e] at h
  · cases h
    exact .inl rfl
  · have hcmd := decodeCmd8_command v i hi
    obtain herr | ⟨rfl, _⟩ | ⟨rfl, _⟩ := exec_err_cases h
    · exact herr
    · simp at hcmd
    · simp at hcmd
  · cases h
  · cases h
    exact .inl rfl

theorem writeRegister_err {r v : Nat} {s t : State} (h : writeRegister r v s = .next t) :
    t.status.err = s.status.err ∨ t.status.err = .none := by
  by_cases h0 : r = 0
  · subst h0
    exact writeCommand_err h
  · by_cases h2 : r = 2
    · subst h2
      change Host.Outcome.next (writeInLen v s) = .next t at h
      cases h
      exact .inl (whenIdle_of (P := fun t => t.status.err = s.status.err) rfl rfl)
    · rw [writeRegister_other r v s h0 h2] at h
      cases h
      exact .inl rfl

/-- Settles O31: register 0 by the command port, register 2 by `writeInLen`, and the others take no write. -/
theorem registerWritesReachCmdAndInLen : Obligations.RegisterWritesReachCmdAndInLen := by
  intro s r v rest hp
  have hstep := step_writeRegister hp
  refine ⟨?_, ?_, ?_, fun hr => hstep.trans (writeRegister_other r v _ (by omega) (by omega)), fun t ht => ?_⟩
  · rintro i rfl hi
    exact hstep.trans (writeCommand_of_decode _ hi)
  · rintro rfl hidle
    exact ⟨BitVec.ofNat Config.lenW v, BitVec.toNat_ofNat _ _, step_writeInLen hp hidle⟩
  · rintro rfl hbusy
    exact hstep.trans (writeRegister_busy 2 v { s with pending := rest } hbusy)
  · rw [hstep] at ht
    exact writeRegister_err (s := { s with pending := rest }) ht

/-! The buffer ports. -/

theorem step_writeIbuf {s : State} {i : Nat} {v : Byte} {rest : List HostMove} (h : s.pending = .wrb i v :: rest) :
    step s = .next (writeIbuf i v { s with pending := rest }) :=
  step_move s (.wrb i v) rest h

theorem writeIbuf_idle {s : State} (hidle : s.status.busy = false) {i : Nat} (hi : i < Config.capIn) (v : Byte) :
    writeIbuf i v s = { s with ibuf := Memory.write s.ibuf i v } :=
  if_pos ⟨hidle, hi⟩

/-- A write of an element of `IBUF` while idle. -/
theorem step_writeIbuf_idle {s : State} {i : Nat} {v : Byte} {rest : List HostMove}
    (h : s.pending = .wrb i v :: rest) (hidle : s.status.busy = false) (hi : i < Config.capIn) :
    step s = .next { s with pending := rest, ibuf := Memory.write s.ibuf i v } :=
  (step_writeIbuf h).trans (congrArg _ (writeIbuf_idle (s := { s with pending := rest }) hidle hi v))

theorem writeIbuf_absent (s : State) {i : Nat} (hi : Config.capIn ≤ i) (v : Byte) : writeIbuf i v s = s :=
  if_neg fun h => Nat.not_lt.2 hi h.2

theorem step_readObuf {s : State} {i : Nat} {rest : List HostMove} (h : s.pending = .rdb i :: rest) :
    step s = readObuf i { s with pending := rest } :=
  step_move s (.rdb i) rest h

theorem readObuf_idle {s : State} (hidle : s.status.busy = false) {i : Nat} (hi : i < Config.capOut) :
    readObuf i s = withOperands (element .obuf s.obuf i) (fun v => answer (.element i v) s) :=
  if_pos ⟨hidle, hi⟩

theorem readObuf_absent (s : State) {i : Nat} (hi : Config.capOut ≤ i) :
    readObuf i s = .next (answerFree (fun n => .element i (Config.freeElement n)) s) :=
  if_neg fun h => Nat.not_lt.2 hi h.2

/-- A read of an element that holds a value. -/
theorem step_readObuf_of_some {s : State} {i : Nat} {rest : List HostMove} (h : s.pending = .rdb i :: rest)
    (hidle : s.status.busy = false) (hi : i < Config.capOut) {v : Byte} (hv : Memory.read s.obuf i = some v) :
    step s = .next { s with pending := rest, replies := .element i v :: s.replies } := by
  rw [step_readObuf h, readObuf_idle (s := { s with pending := rest }) hidle hi, element_of_read _ hv]
  rfl

/-- Settles O32: while idle each port reaches its buffer inside the capacity; while busy a write is ignored and a read
draws. -/
theorem bufferPortsReachIbufAndObuf : Obligations.BufferPortsReachIbufAndObuf := by
  refine ⟨fun s i v rest hp => ⟨fun hidle hi => ?_, fun hbusy => ?_⟩,
    fun s i rest hp => ⟨fun hidle hi v hv => step_readObuf_of_some hp hidle hi hv, fun hidle hi hnone => ?_,
      fun hbusy => ?_⟩⟩
  · exact ⟨_, step_writeIbuf_idle hp hidle hi, Memory.read_write_same _ _ _,
      fun a ha => Memory.read_write_other _ _ _ _ ha⟩
  · rw [step_writeIbuf hp, writeIbuf_busy i v { s with pending := rest } hbusy]
  · rw [step_readObuf hp, readObuf_idle (s := { s with pending := rest }) hidle hi, element_of_none _ hnone]
    rfl
  · exact ⟨_, (step_readObuf hp).trans (readObuf_busy i { s with pending := rest } hbusy)⟩

/-- Settles O33: a number that the block does not have is in none of the ports' ranges. -/
theorem nonexistentRegistersAndElementsAreInert : Obligations.NonexistentRegistersAndElementsAreInert := by
  refine fun s rest => ⟨fun r v hr hp => ?_, fun i v hi hp => ?_, fun r hr hp => ?_, fun i hi hp => ?_⟩
  · rw [step_writeRegister hp, writeRegister_other r v _ (by omega) (by omega)]
  · rw [step_writeIbuf hp, writeIbuf_absent _ hi]
  · have hnone : definedRegister s r = none := by
      unfold definedRegister
      rw [registerValue_absent s hr, ite_self]
    exact ⟨_, step_readRegister_of_none hp hnone⟩
  · exact ⟨_, (step_readObuf hp).trans (readObuf_absent { s with pending := rest } hi)⟩

/-! Reads have no side effect (R62). -/

theorem readObuf_same {i : Nat} {s t : State} (h : readObuf i s = .next t) : SameBlock s t := by
  unfold readObuf at h
  split at h
  · obtain ⟨_, _, rfl⟩ := (withOperands_next _ _ _).1 h
    rfl
  · cases h
    rfl

/-- Settles O35: after a read the block is as before, so the second read finds what the first found. -/
theorem readsAreIdempotent : Obligations.ReadsAreIdempotent := by
  refine ⟨fun s r rest hidle hr hp => ?_, fun s i v rest hidle hi hv hp => ?_, ?_⟩
  · obtain ⟨v, hv⟩ := registerValue_present s hr
    have hdef : definedRegister s r = some v := (definedRegister_idle hidle r).trans hv
    refine ⟨v, ?_⟩
    rw [core_run_step 1 s _ (step_readRegister_of_some hp hdef),
      core_run_step 0 _ _ (step_readRegister_of_some (s := { s with pending := _, replies := _ }) rfl hdef)]
    rfl
  · rw [core_run_step 1 s _ (step_readObuf_of_some hp hidle hi hv),
      core_run_step 0 _ _ (step_readObuf_of_some (s := { s with pending := _, replies := _ }) rfl hidle hi hv)]
    rfl
  · rintro s t m rest hp ⟨n, rfl | rfl⟩ ht
    · rw [step_readRegister hp] at ht
      cases ht
      exact readRegister_same n _
    · rw [step_readObuf hp] at ht
      exact readObuf_same (s := { s with pending := rest }) ht

/-! The moves that read and go on (R95). -/

theorem readRegister_status (s : State) :
    readRegister 1 s = answer (.register 1 ((statusWord s.status).setWidth Config.olenW)) s :=
  readRegister_of_some (definedRegister_status s)

theorem readRegister_outLen {s : State} (hidle : s.status.busy = false) :
    readRegister 3 s = answer (.register 3 s.outLen) s :=
  readRegister_of_some (definedRegister_idle hidle 3)

/-- Settles O36: `WAIT` by its round, `READOUT` by the read of `OUT_LEN`, which is the latest reply. -/
theorem waitPollsUntilDone : Obligations.WaitPollsUntilDone := by
  refine ⟨fun s rest hp hdone => ?_, fun s rest hp hdone => ?_, fun s rest hp hidle => ?_⟩
  · have hmove : hostMove .wait { s with pending := rest } = .next (waitRound { s with pending := rest }) := rfl
    rw [step_move s .wait rest hp, hmove, waitRound, readRegister_status]
    simp [hdone, answer]
  · have hmove : hostMove .wait { s with pending := rest } = .next (waitRound { s with pending := rest }) := rfl
    rw [step_move s .wait rest hp, hmove, waitRound, readRegister_status]
    simp [hdone, answer, schedule]
  · have hmove : hostMove .readout { s with pending := rest } = .next (readoutMoves { s with pending := rest }) := rfl
    rw [step_move s .readout rest hp, hmove, readoutMoves, readRegister_outLen (s := { s with pending := rest }) hidle]
    rfl

/-! A host that keeps its duties. -/

/-- `o` is a next state, without a free value drawn. -/
def Answers (s : State) (o : Host.Outcome State Fault Refusal) : Prop := ∃ t, o = .next t ∧ t.draws = s.draws

theorem readRegister_answers {s : State} {r : Nat} (hr : r = 1 ∨ s.status.busy = false ∧ r ≤ 4) :
    (readRegister r s).draws = s.draws := by
  obtain rfl | ⟨hidle, hr⟩ := hr
  · rw [readRegister_status]
    rfl
  · obtain ⟨v, hv⟩ := registerValue_present s hr
    rw [readRegister_of_some ((definedRegister_idle hidle r).trans hv)]
    rfl

/-- The four command words are answered, whatever the state. -/
theorem writeCommand_answers {v : Nat} (s : State) (hv : v < 4) : Answers s (writeCommand v s) := by
  obtain ⟨i, hi⟩ : ∃ i, decode (.cmd8 v) = .ok i := by
    interval_cases v <;> exact ⟨_, rfl⟩
  rw [writeCommand_of_decode s hi]
  obtain ⟨t, ht⟩ : ∃ t, exec i s = .next t := by
    obtain rfl | rfl | rfl | rfl := decodeCmd8_command v i hi <;> exact ⟨_, rfl⟩
  obtain ⟨_, _, _, _, hdraws⟩ := exec_sameInput ht
  exact ⟨t, ht, hdraws⟩

theorem writeInLen_draws (v : Nat) (s : State) : (writeInLen v s).draws = s.draws :=
  whenIdle_of (P := fun t => t.draws = s.draws) rfl rfl

/-- A write that keeps the duties is of a command word, of `IN_LEN` or of a register that takes none. -/
theorem writeRegister_answers {r v : Nat} (s : State) (h : r = 0 → v < 4) : Answers s (writeRegister r v s) := by
  by_cases h0 : r = 0
  · subst h0
    exact writeCommand_answers s (h rfl)
  · by_cases h2 : r = 2
    · subst h2
      exact ⟨_, rfl, writeInLen_draws v s⟩
    · exact ⟨s, writeRegister_other r v s h0 h2, rfl⟩

theorem keepsDuties_command {s : State} {r v : Nat} (h : keepsDuties s (.wr r v) = true) (hr : r = 0) : v < 4 := by
  subst hr
  simp only [keepsDuties, Bool.or_eq_true, Bool.and_eq_true, decide_eq_true_eq] at h
  omega

theorem writeIbuf_draws (i : Nat) (v : Byte) (s : State) : (writeIbuf i v s).draws = s.draws := by
  unfold writeIbuf
  split <;> rfl

/-- After a completion every element of the result holds a value. -/
theorem readObuf_answers {s : State} {i : Nat} (hseq : SequencerInv s) (hphase : s.phase = .idle)
    (hidle : s.status.busy = false) (hdone : s.status.done = true) (hi : i < s.outLen.toNat) :
    Answers s (readObuf i s) := by
  obtain ⟨v, hv⟩ := Option.isSome_iff_exists.1 (hseq.1 hphase hdone i hi)
  have hcap : i < Config.capOut := hi.trans (outWord_lt _)
  exact ⟨answer (.element i v) s, by rw [readObuf_idle hidle hcap, element_of_read _ hv, withOperands_ok], rfl⟩

theorem waitRound_draws (s : State) : (waitRound s).draws = s.draws := by
  have hread : (readRegister 1 s).draws = s.draws := readRegister_answers (.inl rfl)
  unfold waitRound
  cases s.status.done <;> exact hread

/-- Every move that keeps the duties, in a state that meets the invariants, is answered. -/
theorem hostMove_answers {s : State} {m : HostMove} (hinv : BlockInv s) (hload : s.phase ≠ .idle → Loaded s)
    (hduty : keepsDuties s m = true) : Answers s (hostMove m s) := by
  obtain ⟨hstatus, _, hseq⟩ := hinv
  cases m with
  | rd r =>
    simp only [keepsDuties, Bool.or_eq_true, Bool.and_eq_true, Bool.not_eq_true', decide_eq_true_eq] at hduty
    exact ⟨_, rfl, readRegister_answers hduty⟩
  | wr r v => exact writeRegister_answers s (keepsDuties_command hduty)
  | wrb i v => exact ⟨_, rfl, writeIbuf_draws i v s⟩
  | rdb i =>
    simp only [keepsDuties, Bool.and_eq_true, Bool.not_eq_true', decide_eq_true_eq] at hduty
    obtain ⟨⟨hidle, hdone⟩, hi⟩ := hduty
    exact readObuf_answers hseq (hstatus.phase_idle hidle) hidle hdone hi
  | reset => exact ⟨_, rfl, rfl⟩
  | letRun =>
    by_cases hp : s.phase = .idle
    · exact ⟨s, (sequencerStep_eq s).trans (by rw [hp]), rfl⟩
    · obtain ⟨t, ht⟩ := hseq.sequencerStep_next (hload hp)
      obtain ⟨_, _, _, _, hdraws⟩ := sequencerStep_sameInput ht
      exact ⟨t, ht, hdraws⟩
  | wait => exact ⟨_, rfl, waitRound_draws s⟩
  | readout =>
    simp only [keepsDuties, Bool.and_eq_true, Bool.not_eq_true'] at hduty
    exact ⟨_, rfl, readRegister_answers (.inr ⟨hduty.1, by omega⟩)⟩
  | copyback =>
    simp only [keepsDuties, Bool.and_eq_true, Bool.not_eq_true'] at hduty
    exact ⟨_, rfl, readRegister_answers (.inr ⟨hduty.1.1, by omega⟩)⟩
  | reload n => exact ⟨_, rfl, rfl⟩

/-- Settles O37: the move is made on the state without it, of which the invariants and the duties say the same. -/
theorem dutyKeepingHostIsAnswered : Obligations.DutyKeepingHostIsAnswered := by
  intro s m rest hinv hload hp hduty
  rw [step_move s m rest hp]
  refine hostMove_answers (s := { s with pending := rest }) hinv hload ?_
  rw [← hduty]
  cases m with
  | wr r v => rcases r with _ | _ | _ | r <;> rfl
  | _ => rfl

end Sys2Proof.Machine
end

section
/-! The function level: `ENCODE` chunk by chunk (R141, R147), the results of `DECODE` (R161, R203 to R210), the round
trip, and the placeholder zero (R167). -/

namespace Sys2Proof.Machine

/-! `ENCODE`. -/

theorem encodeBytes_pair (b0 b1 : Byte) (rest : List Byte) :
    encodeBytes (b0 :: b1 :: rest) = encodeChunk b0 b1 ++ encodeBytes rest := rfl

/-- A chunk moves the characters of the rest by three. -/
theorem encodeBytes_shift (b0 b1 : Byte) (rest : List Byte) (j : Nat) :
    (encodeBytes (b0 :: b1 :: rest))[j + 3]? = (encodeBytes rest)[j]? := by
  simp [encodeBytes_pair, encodeChunk_eq]

/-- The three characters of the `k`-th chunk. -/
theorem encodeBytes_chunk (bs : List Byte) (k : Nat) (b0 b1 : Byte) (h0 : bs[2 * k]? = some b0)
    (h1 : bs[2 * k + 1]? = some b1) :
    (encodeBytes bs)[3 * k]? = some (charAt (Fin.ofNat 45 (pack16 b0 b1 % 45))) ∧
    (encodeBytes bs)[3 * k + 1]? = some (charAt (Fin.ofNat 45 (pack16 b0 b1 / 45 % 45))) ∧
    (encodeBytes bs)[3 * k + 2]? = some (charAt (Fin.ofNat 45 (pack16 b0 b1 / 2025 % 45))) := by
  induction k generalizing bs with
  | zero =>
    match bs, h0, h1 with
    | [_], _, h1 => simp at h1
    | a :: b :: rest, h0, h1 =>
      obtain rfl : a = b0 := by simpa using h0
      obtain rfl : b = b1 := by simpa using h1
      simp [encodeBytes_pair, encodeChunk_eq]
  | succ k ih =>
    match bs, h0, h1 with
    | [_], h0, _ => simp at h0
    | a :: b :: rest, h0, h1 =>
      have hrest := ih rest h0 h1
      rw [← encodeBytes_shift a b, ← encodeBytes_shift a b, ← encodeBytes_shift a b] at hrest
      exact hrest

/-- The two characters of a trailing byte after `k` full chunks. -/
theorem encodeBytes_last (bs : List Byte) (k : Nat) (b : Byte) (hb : bs[2 * k]? = some b)
    (hlen : bs.length = 2 * k + 1) :
    (encodeBytes bs)[3 * k]? = some (charAt (Fin.ofNat 45 (b.toNat % 45))) ∧
    (encodeBytes bs)[3 * k + 1]? = some (charAt (Fin.ofNat 45 (b.toNat / 45 % 45))) ∧
    (encodeBytes bs)[3 * k + 2]? = none := by
  induction k generalizing bs with
  | zero =>
    obtain ⟨a, rfl⟩ := List.length_eq_one_iff.1 hlen
    obtain rfl : a = b := by simpa using hb
    simp [encodeBytes, encodeLast_eq]
  | succ k ih =>
    match bs, hb, hlen with
    | [_], hb, _ => simp at hb
    | a :: c :: rest, hb, hlen =>
      have hrest := ih rest hb (by simp only [List.length_cons] at hlen; omega)
      rw [← encodeBytes_shift a c, ← encodeBytes_shift a c, ← encodeBytes_shift a c] at hrest
      exact hrest

/-- Settles O42: by induction on the chunks before, each of which moves the characters by three. -/
theorem encodedGroupsStandInInputOrder : Obligations.EncodedGroupsStandInInputOrder :=
  fun bs k => ⟨encodeBytes_chunk bs k, encodeBytes_last bs k⟩

/-! Translation (step 3 of R161). -/

/-- The digits of a string, a character outside the alphabet counting as 0. -/
def digitsOf (str : List Byte) : List DigitWord := str.map (fun c => (indexOf c).idx)

/-- A string that translates gives its digits. -/
theorem translateString_of_valid (ign : Bool) (i : Nat) (str : List Byte)
    (h : ∀ c ∈ str, ign = true ∨ (indexOf c).valid = true) : translateString ign i str = .ok (digitsOf str) := by
  induction str generalizing i with
  | nil => rfl
  | cons c rest ih =>
    have hc : ¬ ((indexOf c).valid = false ∧ ign = false) := by
      obtain hi | hv := h c List.mem_cons_self
      · simp [hi]
      · simp [hv]
    have hrest := ih (i + 1) fun c hc => h c (List.mem_cons_of_mem _ hc)
    simp only [translateString, if_neg hc, hrest]
    rfl

/-- `p` is the position of the first character outside the alphabet. -/
def FirstInvalid (str : List Byte) (p : Nat) : Prop :=
  (∃ c, str[p]? = some c ∧ (indexOf c).valid = false) ∧
    ∀ q c, q < p → str[q]? = some c → (indexOf c).valid = true

theorem FirstInvalid.head {c : Byte} (rest : List Byte) (hv : (indexOf c).valid = false) :
    FirstInvalid (c :: rest) 0 :=
  ⟨⟨c, rfl, hv⟩, fun q _ hq => absurd hq (Nat.not_lt_zero q)⟩

theorem FirstInvalid.cons {c : Byte} {rest : List Byte} {p : Nat} (hv : (indexOf c).valid = true)
    (h : FirstInvalid rest p) : FirstInvalid (c :: rest) (p + 1) := by
  obtain ⟨hat, hbefore⟩ := h
  refine ⟨hat, fun q d hq hd => ?_⟩
  cases q with
  | zero =>
    obtain rfl : c = d := by simpa using hd
    exact hv
  | succ q => exact hbefore q d (by omega) hd

/-- Either all characters are of the alphabet or there is a first one that is not. -/
theorem all_valid_or_firstInvalid (str : List Byte) :
    (∀ c ∈ str, (indexOf c).valid = true) ∨ ∃ p, FirstInvalid str p := by
  induction str with
  | nil => exact .inl fun c hc => absurd hc List.not_mem_nil
  | cons c rest ih =>
    cases hv : (indexOf c).valid with
    | false => exact .inr ⟨0, .head rest hv⟩
    | true =>
      obtain hall | ⟨p, hp⟩ := ih
      · exact .inl (List.forall_mem_cons.2 ⟨hv, hall⟩)
      · exact .inr ⟨p + 1, hp.cons hv⟩

/-- Strict translation stops at the first character outside the alphabet. -/
theorem translateString_of_firstInvalid (i : Nat) {str : List Byte} {p : Nat} (h : FirstInvalid str p) :
    translateString false i str = .error (i + p) := by
  induction p generalizing i str with
  | zero =>
    obtain ⟨⟨c, hc, hv⟩, _⟩ := h
    match str, hc with
    | _ :: rest, rfl => simp [translateString, hv]
  | succ p ih =>
    obtain ⟨⟨c, hc, hv⟩, hbefore⟩ := h
    match str, hc with
    | d :: rest, hc =>
      have hd : (indexOf d).valid = true := hbefore 0 d (Nat.succ_pos p) rfl
      have hrest := ih (i + 1) (str := rest) ⟨⟨c, hc, hv⟩, fun q e hq he => hbefore (q + 1) e (by omega) he⟩
      simp only [translateString, hd, hrest, Bool.true_eq_false, false_and, if_false]
      congr 1
      omega

/-- The two ends of a translation (R161, R167). -/
theorem translateString_cases (ign : Bool) (str : List Byte) :
    ((∀ c ∈ str, ign = true ∨ (indexOf c).valid = true) ∧ translateString ign 0 str = .ok (digitsOf str)) ∨
    ∃ p, ign = false ∧ FirstInvalid str p ∧ translateString ign 0 str = .error p := by
  cases ign with
  | true =>
    have hall : ∀ c ∈ str, true = true ∨ (indexOf c).valid = true := fun _ _ => .inl rfl
    exact .inl ⟨hall, translateString_of_valid true 0 str hall⟩
  | false =>
    obtain hall | ⟨p, hp⟩ := all_valid_or_firstInvalid str
    · have hall' : ∀ c ∈ str, false = true ∨ (indexOf c).valid = true := fun c hc => .inr (hall c hc)
      exact .inl ⟨hall', translateString_of_valid false 0 str hall'⟩
    · exact .inr ⟨p, rfl, hp, (translateString_of_firstInvalid 0 hp).trans (by rw [Nat.zero_add])⟩

/-! `DECODE`. -/

theorem decodeString_invalidLength {str : List Byte} (h : str.length % 3 = 1) :
    decodeString str false = .invalidLength := by
  have hne : str.length ≠ 0 := by omega
  unfold decodeString
  rw [if_neg hne, if_pos ⟨h, rfl⟩]

/-- A length that passes the check: the empty string translates too, to no digit. -/
theorem decodeString_of_ok {str : List Byte} {ign : Bool} {ds : List DigitWord} (h : str.length % 3 = 1 → ign = true)
    (e : translateString ign 0 str = .ok ds) : decodeString str ign = .bytes (emitBytes ds) := by
  cases str with
  | nil => cases e; rfl
  | cons c rest => simpa [decodeString, e] using h

theorem decodeString_of_error {str : List Byte} {ign : Bool} {p : Nat} (h : str.length % 3 = 1 → ign = true)
    (e : translateString ign 0 str = .error p) : decodeString str ign = .invalidCharacter p := by
  cases str with
  | nil => cases e
  | cons c rest => simpa [decodeString, e] using h

/-- The three results of `DECODE` (R161), each with what leads to it. -/
theorem decodeString_cases (str : List Byte) (ign : Bool) :
    (str.length % 3 = 1 ∧ ign = false ∧ decodeString str ign = .invalidLength) ∨
    ((str.length % 3 = 1 → ign = true) ∧
      (((∀ c ∈ str, ign = true ∨ (indexOf c).valid = true) ∧
        decodeString str ign = .bytes (emitBytes (digitsOf str))) ∨
      ∃ p, ign = false ∧ FirstInvalid str p ∧ decodeString str ign = .invalidCharacter p)) := by
  by_cases h : str.length % 3 = 1 ∧ ign = false
  · obtain ⟨hmod, rfl⟩ := h
    exact .inl ⟨hmod, rfl, decodeString_invalidLength hmod⟩
  · have hok : str.length % 3 = 1 → ign = true := fun hmod => by
      by_contra hign
      exact h ⟨hmod, by simpa using hign⟩
    refine .inr ⟨hok, ?_⟩
    obtain ⟨hall, e⟩ | ⟨p, hign, hp, e⟩ := translateString_cases ign str
    · exact .inl ⟨hall, decodeString_of_ok hok e⟩
    · exact .inr ⟨p, hign, hp, decodeString_of_error hok e⟩

theorem emitBytes_digitsOf_length (str : List Byte) : (emitBytes (digitsOf str)).length = decodeLen str.length := by
  rw [emitBytes_length, digitsOf, List.length_map]

/-- The length law of a successful decode (R171). -/
theorem decodeString_length {str : List Byte} {ign : Bool} {r : List Byte} (h : decodeString str ign = .bytes r) :
    r.length = decodeLen str.length := by
  obtain ⟨_, _, e⟩ | ⟨_, ⟨_, e⟩ | ⟨p, _, _, e⟩⟩ := decodeString_cases str ign <;> rw [e] at h
  · cases h
  · cases h
    exact emitBytes_digitsOf_length str
  · cases h

/-- Settles O44: both halves are the closed form `decodeLen`, which the function level meets run by run and the machine
by its invariant. -/
theorem decodeLengthLaw : Obligations.DecodeLengthLaw := by
  refine ⟨fun str ign r h => ?_, fun s hinv hp hr => (hinv.emitInv hp).lengths_of_remaining_zero hr⟩
  rw [decodeString_length h]
  exact ⟨rfl, decodeLen_le _⟩

/-- Settles O49: each result by what leads to it, the three excluding one another. -/
theorem decodeReportsTheFirstError : Obligations.DecodeReportsTheFirstError := by
  refine ⟨fun str => ⟨fun h => ?_, decodeString_invalidLength⟩, fun str p => ⟨fun h => ?_, ?_⟩, fun str => ?_⟩
  · obtain ⟨hmod, _, _⟩ | ⟨_, ⟨_, e⟩ | ⟨p, _, _, e⟩⟩ := decodeString_cases str false
    · exact hmod
    · rw [e] at h
      cases h
    · rw [e] at h
      cases h
  · obtain ⟨_, _, e⟩ | ⟨hok, ⟨_, e⟩ | ⟨p', _, hp, e⟩⟩ := decodeString_cases str false <;> rw [e] at h
    · cases h
    · cases h
    · cases h
      exact ⟨fun hmod => by simpa using hok hmod, hp⟩
  · rintro ⟨hmod, hp⟩
    have herror := translateString_of_firstInvalid 0 (str := str) (p := p) hp
    rw [Nat.zero_add] at herror
    exact decodeString_of_error (fun h => absurd h hmod) herror
  · obtain ⟨_, hign, _⟩ | ⟨_, ⟨_, e⟩ | ⟨p, hign, _⟩⟩ := decodeString_cases str true
    · cases hign
    · exact ⟨_, e⟩
    · cases hign

/-! The placeholder zero. -/

/-- Replacing the characters outside the alphabet by the character `0` keeps the digits: both have the index 0. -/
theorem digitsOf_replace (str : List Byte) :
    digitsOf (str.map (fun c => if (indexOf c).valid then c else 0x30)) = digitsOf str := by
  unfold digitsOf
  rw [List.map_map]
  refine List.map_congr_left fun c _ => ?_
  cases hv : (indexOf c).valid with
  | true => simp [hv]
  | false =>
    have hzero : (indexOf 0x30).idx = 0 := by decide
    simp only [Function.comp_apply, hv, Bool.false_eq_true, if_false, hzero, indexOf_idx_of_invalid c hv]

/-- Settles O48: both decodes emit the digits of the string. -/
theorem ignoredCharacterActsAsZero : Obligations.IgnoredCharacterActsAsZero := by
  intro str hmod
  have hvalid : ∀ c ∈ str.map (fun c => if (indexOf c).valid then c else 0x30),
      false = true ∨ (indexOf c).valid = true := by
    intro c hc
    obtain ⟨d, _, rfl⟩ := List.mem_map.1 hc
    right
    split
    · next h => exact h
    · decide
  rw [decodeString_of_ok (fun h => absurd h hmod) (translateString_of_valid true 0 str fun _ _ => .inl rfl),
    decodeString_of_ok (fun h => absurd (by simpa using h) hmod) (translateString_of_valid false 0 _ hvalid),
    digitsOf_replace]

/-! The round trip. -/

theorem digitsOf_charAt (d : Digit) (rest : List Byte) :
    digitsOf (charAt d :: rest) = BitVec.ofNat 6 d.val :: digitsOf rest := by
  simp [digitsOf, indexOf_charAt]

/-- A chunk of an encoding is a run of the decode that gives its two bytes back. -/
theorem emitBytes_encodeChunk (b0 b1 : Byte) (rest : List Byte) :
    emitBytes (digitsOf (encodeChunk b0 b1 ++ rest)) = b0 :: b1 :: emitBytes (digitsOf rest) := by
  have hmac := mac3_digits3 (pack16 b0 b1) ((pack16_lt b0 b1).trans (by decide))
  have hchunk : encodeChunk b0 b1 = [charAt (digits3 (pack16 b0 b1)).1, charAt (digits3 (pack16 b0 b1)).2.1,
      charAt (digits3 (pack16 b0 b1)).2.2] := rfl
  simp only [hchunk, List.cons_append, List.nil_append, digitsOf_charAt, emitBytes, hmac, split16_pack16]

/-- The tail of an encoding is the short run that gives its byte back. -/
theorem emitBytes_encodeLast (b : Byte) : emitBytes (digitsOf (encodeLast b)) = [b] := by
  have hlast : encodeLast b = [charAt (digits2 b).1, charAt (digits2 b).2] := rfl
  have hbyte : trunc8 b.toNat = b := BitVec.eq_of_toNat_eq ((trunc8_toNat _).trans (Nat.mod_eq_of_lt b.isLt))
  rw [hlast, digitsOf_charAt, digitsOf_charAt]
  simp only [digitsOf, List.map_nil, emitBytes, mac2_digits2, hbyte]

theorem emitBytes_encodeBytes (bs : List Byte) : emitBytes (digitsOf (encodeBytes bs)) = bs := by
  induction bs using encodeBytes.induct with
  | case1 => rfl
  | case2 b => exact emitBytes_encodeLast b
  | case3 b0 b1 rest ih => rw [encodeBytes_pair, emitBytes_encodeChunk, ih]

/-- Settles O46: an encoding has a length and characters that pass the checks of either policy, and its digits give the
bytes back. -/
theorem decodeInvertsEncode : Obligations.DecodeInvertsEncode := by
  intro bs ign
  have hmod : (encodeBytes bs).length % 3 ≠ 1 := by
    rw [encodeBytes_length]
    exact encodeLen_mod_three _
  have hvalid : ∀ c ∈ encodeBytes bs, ign = true ∨ (indexOf c).valid = true := by
    intro c hc
    obtain ⟨d, rfl⟩ := charAt_of_mem_encodeBytes bs c hc
    rw [indexOf_charAt]
    exact .inr rfl
  rw [decodeString_of_ok (fun h => absurd h hmod) (translateString_of_valid ign 0 _ hvalid), emitBytes_encodeBytes]

/-- Settles O47: the round trip makes encode injective; decode loses bit 16, so `:::` (91124) decodes as the characters
of 91124 - 65536 = 25588 do (R130). -/
theorem encodeIsInjectiveAndDecodeIsNot : Obligations.EncodeIsInjectiveAndDecodeIsNot := by
  refine ⟨fun xs ys h => ?_, [charAt 44, charAt 44, charAt 44], [charAt 28, charAt 28, charAt 12], by decide,
    [0x63, 0xF4], by decide, by decide⟩
  have hx := decodeInvertsEncode xs false
  rw [h, decodeInvertsEncode ys false] at hx
  cases hx
  rfl

end Sys2Proof.Machine
end

section
/-! A list of values written from an index on, and the loading of the input (R95). -/

namespace Sys2Proof.Machine

/-! Writing a list. -/

/-- The values `vs` written one after another from index `o` on. -/
def Memory.writeList {w : Nat} (m : Buffer w) (o : Nat) : List (BitVec w) → Buffer w
  | [] => m
  | v :: vs => Memory.writeList (Memory.write m o v) (o + 1) vs

theorem Memory.writeList_append {w : Nat} (m : Buffer w) (o : Nat) (xs ys : List (BitVec w)) :
    Memory.writeList m o (xs ++ ys) = Memory.writeList (Memory.writeList m o xs) (o + xs.length) ys := by
  induction xs generalizing m o with
  | nil => rfl
  | cons x xs ih =>
    simp only [List.cons_append, Memory.writeList, List.length_cons, ih]
    congr 1
    omega

/-- The elements outside the list are as they were. -/
theorem Memory.read_writeList_outside {w : Nat} (m : Buffer w) (o a : Nat) (vs : List (BitVec w))
    (h : a < o ∨ o + vs.length ≤ a) : Memory.read (Memory.writeList m o vs) a = Memory.read m a := by
  induction vs generalizing m o with
  | nil => rfl
  | cons v vs ih =>
    rw [List.length_cons] at h
    rw [Memory.writeList, ih _ _ (by omega), Memory.read_write_other _ _ _ _ (by omega)]

/-- The `i`-th value stands at `o + i`. -/
theorem Memory.read_writeList {w : Nat} (m : Buffer w) (o i : Nat) (vs : List (BitVec w)) (v : BitVec w)
    (h : vs[i]? = some v) : Memory.read (Memory.writeList m o vs) (o + i) = some v := by
  induction vs generalizing m o i with
  | nil => simp at h
  | cons u vs ih =>
    cases i with
    | zero =>
      obtain rfl : u = v := by simpa using h
      rw [Memory.writeList, Memory.read_writeList_outside _ _ _ _ (.inl (by omega)), Nat.add_zero,
        Memory.read_write_same]
    | succ i =>
      have hi : o + (i + 1) = o + 1 + i := by omega
      rw [Memory.writeList, hi]
      exact ih _ _ _ h

/-! `LOAD`. -/

/-- The `WRB` moves of a `LOAD` write the values one after another. -/
theorem run_loadFrom (xs : List Byte) (i : Nat) (s : State) (rest : List HostMove) (hidle : s.status.busy = false)
    (hcap : i + xs.length ≤ Config.capIn) (hp : s.pending = loadFrom i xs ++ rest) :
    Host.Core.run core xs.length s = .next { s with pending := rest, ibuf := Memory.writeList s.ibuf i xs } := by
  induction xs generalizing i s with
  | nil =>
    change s.pending = rest at hp
    subst hp
    rfl
  | cons x xs ih =>
    rw [List.length_cons] at hcap
    rw [loadFrom, List.cons_append] at hp
    rw [List.length_cons, core_run_step _ _ _ (step_writeIbuf_idle hp hidle (by omega))]
    exact ih (i + 1) { s with pending := _, ibuf := _ } hidle (by omega) rfl

/-- Settles O58: the values by the `WRB` moves, their number by the last move. -/
theorem loadFillsTheInput : Obligations.LoadFillsTheInput := by
  intro s xs rest hidle hcap hp
  refine ⟨BitVec.ofNat Config.lenW xs.length, Memory.writeList s.ibuf 0 xs, ?_, fun i x hx => ?_, fun i hi => ?_, ?_⟩
  · have : Config.capIn = 65535 := rfl
    rw [BitVec.toNat_ofNat]
    exact Nat.mod_eq_of_lt (by rw [two_pow_lenW]; omega)
  · have hread := Memory.read_writeList s.ibuf 0 i xs x hx
    rwa [Nat.zero_add] at hread
  · exact Memory.read_writeList_outside _ _ _ _ (.inr (by omega))
  · have hp' : s.pending = loadFrom 0 xs ++ (.wr 2 xs.length :: rest) := by
      rw [hp, load, List.append_assoc]
      rfl
    rw [run_add core _ 1 s _ (run_loadFrom xs 0 s _ hidle (by omega) hp'),
      core_run_step 0 _ _ (step_writeInLen (s := { s with pending := _, ibuf := _ }) rfl hidle)]
    rfl

/-! `LOADS`. -/

theorem textCodes_of_ascii (cs : List Char) (h : ∀ c, c ∈ cs → c.toNat < 128) : ∃ xs, textCodes cs = some xs := by
  induction cs with
  | nil => exact ⟨[], rfl⟩
  | cons c cs ih =>
    obtain ⟨x, hx⟩ := charCode_of_ascii c (h c List.mem_cons_self)
    obtain ⟨xs, hxs⟩ := ih fun d hd => h d (List.mem_cons_of_mem _ hd)
    exact ⟨x :: xs, (textCodes_cons c cs _).2 ⟨x, xs, hx, hxs, rfl⟩⟩

/-- The codes of a text are one for each character, in order. -/
theorem textCodes_getElem (cs : List Char) (xs : List Byte) (h : textCodes cs = some xs) :
    xs.length = cs.length ∧ ∀ (i : Nat) c, cs[i]? = some c → ∃ x, xs[i]? = some x ∧ charCode c = some x := by
  induction cs generalizing xs with
  | nil =>
    cases h
    simp
  | cons d cs ih =>
    obtain ⟨y, ys, hy, hys, rfl⟩ := (textCodes_cons d cs xs).1 h
    obtain ⟨hlen, hcodes⟩ := ih ys hys
    refine ⟨by rw [List.length_cons, List.length_cons, hlen], fun i c hc => ?_⟩
    cases i with
    | zero =>
      obtain rfl : d = c := by simpa using hc
      exact ⟨y, rfl, hy⟩
    | succ i => exact hcodes i c hc

/-- The alphabet's characters have the codes of `CHAR_ROM` (R102). -/
theorem charCode_alphabet (i : Digit) : (alphabet[i.val]?).bind charCode = some (charAt i) := by
  revert i
  decide

/-- Settles O59: character by character. -/
theorem loadsGivesTheCodesOfTheText : Obligations.LoadsGivesTheCodesOfTheText := by
  refine ⟨fun text h => ?_, fun text ms h => ?_, fun i c hc => ?_⟩
  · obtain ⟨xs, hxs⟩ := textCodes_of_ascii text.toList h
    exact ⟨load xs, by rw [loads, hxs]; rfl⟩
  · obtain ⟨xs, hxs, rfl⟩ := Option.map_eq_some_iff.1 h
    obtain ⟨hlen, hcodes⟩ := textCodes_getElem _ xs hxs
    refine ⟨xs, rfl, hlen, fun i c hc => ?_⟩
    obtain ⟨x, hx, hcode⟩ := hcodes i c hc
    exact ⟨x, hx, charCode_toNat c x hcode⟩
  · have hcode := charCode_alphabet i
    rwa [hc] at hcode

end Sys2Proof.Machine
end

section
/-! The two levels agree, `ENCODE` (R150): a run of its steps computes the function. -/

namespace Sys2Proof.Machine

/-! What a command leaves behind. -/

/-- The code of `ERR` that reports a result. -/
def DecodeResult.err : DecodeResult → ErrKind
  | .bytes _ => .none
  | .invalidLength => .invalidLength
  | .invalidCharacter _ => .invalidCharacter

/-- The position that `ERR_POS` reports. -/
def DecodeResult.pos : DecodeResult → Nat
  | .bytes _ => 0
  | .invalidLength => 0
  | .invalidCharacter p => p

/-- The elements that stand in `OBUF`. -/
def DecodeResult.out : DecodeResult → List Byte
  | .bytes bs => bs
  | .invalidLength => []
  | .invalidCharacter _ => []

/-- `t` is idle with the result `r` of a command that `s` had to come, and nothing of the input changed. -/
def HasResult (s t : State) (r : DecodeResult) : Prop :=
  t.phase = .idle ∧ t.pending = [] ∧ t.ibuf = s.ibuf ∧ t.inLen = s.inLen ∧
  t.status = { busy := false, done := true, err := r.err } ∧ t.errPos.toNat = r.pos ∧
  t.outLen.toNat = r.out.length ∧ t.obuf = Memory.writeList s.obuf 0 r.out

theorem statusWord_done : statusWord { busy := false, done := true, err := .none } = 0x02 := by decide

/-- What stands in `OBUF` after a command: the result, and beyond it what stood there before. -/
theorem HasResult.read_obuf {s t : State} {r : DecodeResult} (h : HasResult s t r) :
    (∀ (i : Nat) b, r.out[i]? = some b → Memory.read t.obuf i = some b) ∧
      ∀ i, r.out.length ≤ i → Memory.read t.obuf i = Memory.read s.obuf i := by
  obtain ⟨_, _, _, _, _, _, _, hobuf⟩ := h
  rw [hobuf]
  refine ⟨fun i b hb => ?_, fun i hi => Memory.read_writeList_outside _ _ _ _ (.inr (by omega))⟩
  have hval := Memory.read_writeList s.obuf 0 i _ b hb
  rwa [Nat.zero_add] at hval

/-- Once idle, the block stays as it is: a longer run ends in the same state. -/
theorem core_run_settled {k n : Nat} {s t : State} (h : Host.Core.run core k s = .next t) (hk : k ≤ n)
    (hp : t.pending = []) (hidle : t.phase = .idle) : Host.Core.run core n s = .next t := by
  obtain ⟨m, rfl⟩ := Nat.exists_eq_add_of_le hk
  rw [run_add core k m s t h]
  exact core_run_idle m t hp hidle

/-- `t` is `s` with all its input taken and `bs` written from `ODX` on. -/
def TakesAll (s t : State) (bs : List Byte) : Prop :=
  ∃ o : OutWord, t = { s with idx := s.inLen, odx := o, obuf := Memory.writeList s.obuf s.odx.toNat bs }

theorem TakesAll.nil {s : State} (h : s.idx.toNat = s.inLen.toNat) : TakesAll s s [] :=
  ⟨s.odx, congrArg (fun i => { s with idx := i }) (BitVec.eq_of_toNat_eq h)⟩

/-- A chunk first and then the rest. -/
theorem TakesAll.append {s t : State} {i : LenWord} {o : OutWord} {xs ys : List Byte}
    (ho : o.toNat = s.odx.toNat + xs.length)
    (h : TakesAll { s with idx := i, odx := o, obuf := Memory.writeList s.obuf s.odx.toNat xs } t ys) :
    TakesAll s t (xs ++ ys) := by
  obtain ⟨o', rfl⟩ := h
  refine ⟨o', ?_⟩
  rw [Memory.writeList_append, ← ho]

/-! The steps of `ENCODE`. -/

/-- The steps that encode `n` bytes: one a chunk and one for a trailing byte. -/
def encodeSteps (n : Nat) : Nat := n / 2 + n % 2

theorem encodeSteps_add_two (n : Nat) : encodeSteps (n + 2) = encodeSteps n + 1 := by
  unfold encodeSteps
  omega

/-- An `ENCODE` with the bytes `bs` left from `IDX` on, and room for their characters from `ODX` on. -/
def EncodesRest (s : State) (bs : List Byte) : Prop :=
  s.phase = .encRun ∧ s.pending = [] ∧ s.idx.toNat + bs.length = s.inLen.toNat ∧
  s.odx.toNat + encodeLen bs.length < 2 ^ Config.olenW ∧
  ∀ (i : Nat) b, bs[i]? = some b → Memory.read s.ibuf (s.idx.toNat + i) = some b

theorem EncodesRest.remaining_eq {s : State} {bs : List Byte} (h : EncodesRest s bs) : remaining s = bs.length := by
  obtain ⟨_, _, hlen, _⟩ := h
  unfold remaining
  omega

theorem EncodesRest.step_pair {s : State} {b0 b1 : Byte} {bs : List Byte} (h : EncodesRest s (b0 :: b1 :: bs)) :
    step s = .next (encodePair s (b0, b1)) ∧ EncodesRest (encodePair s (b0, b1)) bs ∧
      (s.odx + 3).toNat = s.odx.toNat + 3 ∧
      encodePair s (b0, b1) =
        { s with
          idx := s.idx + 2, odx := s.odx + 3,
          obuf := Memory.writeList s.obuf s.odx.toNat (encodeChunk b0 b1) } := by
  have hrem := h.remaining_eq
  obtain ⟨hphase, hp, hlen, hroom, hread⟩ := h
  simp only [List.length_cons] at hrem hlen hroom
  have hchars : encodeLen (bs.length + 1 + 1) = encodeLen bs.length + 3 := by
    unfold encodeLen
    omega
  have hidx1 : (s.idx + 1).toNat = s.idx.toNat + 1 := lenWord_add_one s.idx s.inLen (by omega)
  have hidx2 : (s.idx + 2).toNat = s.idx.toNat + 2 := lenWord_add_two s.idx s.inLen (by omega)
  have hodx1 : (s.odx + 1).toNat = s.odx.toNat + 1 := outWord_add_one _ (by omega)
  have hodx2 : (s.odx + 2).toNat = s.odx.toNat + 2 := outWord_add_two _ (by omega)
  have hodx3 : (s.odx + 3).toNat = s.odx.toNat + 3 := outWord_add_three _ (by omega)
  have hstep : step s = .next (encodePair s (b0, b1)) := by
    rw [step_encRun hp hphase ((eq_encStep_iff _ _).2 (.inr (.inr ⟨rfl, by omega⟩)))]
    exact exec_encPair_of_read s b0 b1 (hread 0 b0 rfl) (by rw [hidx1]; exact hread 1 b1 rfl)
  refine ⟨hstep, ⟨hphase, hp, ?_, ?_, fun i b hb => ?_⟩, hodx3, ?_⟩
  · show (s.idx + 2).toNat + bs.length = s.inLen.toNat
    omega
  · show (s.odx + 3).toNat + encodeLen bs.length < _
    omega
  · show Memory.read s.ibuf ((s.idx + 2).toNat + i) = some b
    have hi : (s.idx + 2).toNat + i = s.idx.toNat + (i + 2) := by omega
    rw [hi]
    exact hread (i + 2) b hb
  · rw [encodePair_frame, encodePair_obuf, hodx1, hodx2, encodeChunk_eq]
    rfl

theorem EncodesRest.step_tail {s : State} {b : Byte} (h : EncodesRest s [b]) :
    step s = .next (encodeTail s b) ∧ TakesAll s (encodeTail s b) (encodeLast b) := by
  have hrem := h.remaining_eq
  obtain ⟨hphase, hp, hlen, hroom, hread⟩ := h
  simp only [List.length_cons, List.length_nil, encodeLen] at hrem hlen hroom
  have hidx1 : s.idx + 1 = s.inLen :=
    BitVec.eq_of_toNat_eq ((lenWord_add_one s.idx s.inLen (by omega)).trans (by omega))
  have hodx1 : (s.odx + 1).toNat = s.odx.toNat + 1 := outWord_add_one _ (by omega)
  have hstep : step s = .next (encodeTail s b) := by
    rw [step_encRun hp hphase ((eq_encStep_iff _ _).2 (.inr (.inl ⟨rfl, hrem⟩)))]
    exact exec_encTail_of_read s b (hread 0 b rfl)
  refine ⟨hstep, s.odx + 2, ?_⟩
  rw [encodeTail_frame, encodeTail_obuf, hodx1, hidx1, encodeLast_eq]
  rfl

/-- The steps of an `ENCODE` write the characters of all the bytes that are left. -/
theorem EncodesRest.run {s : State} {bs : List Byte} (h : EncodesRest s bs) :
    ∃ t, Host.Core.run core (encodeSteps bs.length) s = .next t ∧ TakesAll s t (encodeBytes bs) := by
  induction bs using encodeBytes.induct generalizing s with
  | case1 =>
    obtain ⟨_, _, hlen, _⟩ := h
    exact ⟨s, rfl, .nil hlen⟩
  | case2 b =>
    obtain ⟨hstep, hall⟩ := h.step_tail
    have hone : encodeSteps [b].length = 0 + 1 := by simp [encodeSteps]
    exact ⟨_, by rw [hone, core_run_step 0 _ _ hstep]; rfl, hall⟩
  | case3 b0 b1 bs ih =>
    obtain ⟨hstep, hrest, hodx, heq⟩ := h.step_pair
    obtain ⟨t, ht, hall⟩ := ih hrest
    rw [heq] at hall
    refine ⟨t, ?_, hall.append hodx⟩
    rw [List.length_cons, List.length_cons, encodeSteps_add_two, core_run_step _ _ _ hstep, ht]

/-- `STATUS` stays while they run. -/
theorem EncodesRest.run_status {s : State} {bs : List Byte} (h : EncodesRest s bs) {k : Nat}
    (hk : k ≤ encodeSteps bs.length) : ∃ u, Host.Core.run core k s = .next u ∧ u.status = s.status := by
  induction bs using encodeBytes.induct generalizing s k with
  | case1 =>
    obtain rfl : k = 0 := Nat.le_zero.1 hk
    exact ⟨s, rfl, rfl⟩
  | case2 b =>
    obtain ⟨hstep, _⟩ := h.step_tail
    have hone : encodeSteps [b].length = 1 := by simp [encodeSteps]
    obtain rfl | rfl : k = 0 ∨ k = 1 := Nat.le_one_iff_eq_zero_or_eq_one.1 (hone ▸ hk)
    · exact ⟨s, rfl, rfl⟩
    · exact ⟨_, core_run_step 0 _ _ hstep, rfl⟩
  | case3 b0 b1 bs ih =>
    obtain ⟨hstep, hrest, _⟩ := h.step_pair
    rw [List.length_cons, List.length_cons, encodeSteps_add_two] at hk
    cases k with
    | zero => exact ⟨s, rfl, rfl⟩
    | succ k =>
      rw [core_run_step _ _ _ hstep]
      exact ih hrest (by omega)

/-- With no input left, ENC_FIN completes. -/
theorem TakesAll.step_encFin {s t : State} {bs : List Byte} (h : TakesAll s t bs) (hphase : s.phase = .encRun)
    (hp : s.pending = []) : step t = .next (complete t) := by
  obtain ⟨o, rfl⟩ := h
  have hfin : Instr.encFin = encStep (s.inLen.toNat - s.inLen.toNat) := by
    rw [Nat.sub_self]
    rfl
  rw [step_encRun (s := { s with idx := s.inLen, odx := o, obuf := _ }) hp hphase hfin, exec_encFin]

/-! The command. -/

/-- The input `bs` is loaded. -/
def HasInput (s : State) (bs : List Byte) : Prop :=
  s.inLen.toNat = bs.length ∧ ∀ (i : Nat) b, bs[i]? = some b → Memory.read s.ibuf i = some b

theorem startEncode_encodesRest {s : State} {bs : List Byte} (hp : s.pending = []) (h : HasInput s bs) :
    EncodesRest (startEncode s) bs := by
  obtain ⟨hlen, hread⟩ := h
  refine ⟨rfl, hp, ?_, ?_, fun i b hb => ?_⟩
  · show 0 + bs.length = s.inLen.toNat
    omega
  · show 0 + encodeLen bs.length < _
    rw [Nat.zero_add, ← hlen]
    exact encodeLen_room s.inLen
  · show Memory.read s.ibuf (0 + i) = some b
    rw [Nat.zero_add]
    exact hread i b hb

/-- The write of 0x01 starts the command. -/
theorem step_startEncode {s : State} (hidle : s.status.busy = false) (hp : s.pending = [.wr 0 0x01]) :
    step s = .next (startEncode { s with pending := [] }) := by
  rw [step_commandWrite s _ _ hp, writeCommand_of_decode (i := .encode) _ rfl, exec_encode,
    whenIdle_idle _ { s with pending := [] } hidle]

/-- The command with all its steps: acceptance, the chunks, completion. -/
theorem encode_command {s : State} {bs : List Byte} (hidle : s.status.busy = false) (hp : s.pending = [.wr 0 0x01])
    (h : HasInput s bs) :
    ∃ t, Host.Core.run core (1 + (encodeSteps bs.length + 1)) s = .next t ∧
      HasResult s t (.bytes (encodeBytes bs)) ∧ t.dbuf = s.dbuf := by
  have hrest : EncodesRest (startEncode { s with pending := [] }) bs := startEncode_encodesRest rfl h
  obtain ⟨t, ht, hall⟩ := hrest.run
  refine ⟨complete t, ?_, ?_⟩
  · rw [Nat.add_comm 1, core_run_step _ _ _ (step_startEncode hidle hp), run_add core _ 1 _ _ ht]
    exact core_run_step 0 _ _ (hall.step_encFin rfl rfl)
  · obtain ⟨o, rfl⟩ := hall
    refine ⟨⟨rfl, rfl, rfl, rfl, rfl, rfl, ?_, rfl⟩, rfl⟩
    show (BitVec.ofNat Config.olenW (encodeLen s.inLen.toNat)).toNat = (encodeBytes bs).length
    rw [encodeLen_fits, h.1, encodeBytes_length]

/-- Settles O50: the run of the command, and the `STATUS` of the states before its end. -/
theorem encodeCommandComputesEncode : Obligations.EncodeCommandComputesEncode := by
  intro s bs hidle hp hlen hread
  have hinput : HasInput s bs := ⟨hlen, hread⟩
  refine ⟨fun k hk => ?_, ?_⟩
  · obtain ⟨u, hu, hstatus⟩ := (startEncode_encodesRest (s := { s with pending := [] }) rfl hinput).run_status
      (k := k) (Nat.le_of_lt_succ hk)
    refine ⟨u, ?_, by rw [hstatus]; rfl⟩
    rw [Nat.add_comm, core_run_step _ _ _ (step_startEncode hidle hp), hu]
  · obtain ⟨t, ht, hresult, hdbuf⟩ := encode_command hidle hp hinput
    obtain ⟨hvalues, hbeyond⟩ := hresult.read_obuf
    obtain ⟨hphase, hpending, hibuf, hin, hstatus, hpos, hout, _⟩ := hresult
    exact ⟨t, ht, by rw [hstatus]; exact statusWord_done, BitVec.eq_of_toNat_eq hpos, hphase, hout, hvalues, hbeyond,
      hibuf, hin, hdbuf, hpending⟩

end Sys2Proof.Machine
end

section
/-! The two levels agree, `DECODE` (R178), and the result of a command depends on its input only (R18). -/

namespace Sys2Proof.Machine

/-! Translation. -/

/-- A decode that translates, with the characters `str` left from `IDX` on and their elements of `DBUF` still 0. -/
def TranslatesRest (s : State) (str : List Byte) : Prop :=
  s.phase = .decXl ∧ s.pending = [] ∧ s.idx.toNat + str.length = s.inLen.toNat ∧
  (∀ (i : Nat) c, str[i]? = some c → Memory.read s.ibuf (s.idx.toNat + i) = some c) ∧
  ∀ i, s.idx.toNat ≤ i → i < s.inLen.toNat → Memory.read s.dbuf i = some 0

/-- `m` is `s.dbuf` with the index of `c` at `IDX`. -/
def StoresDigit (s : State) (c : Byte) (m : Buffer 6) : Prop :=
  Memory.read m s.idx.toNat = some (indexOf c).idx ∧ ∀ a, a ≠ s.idx.toNat → Memory.read m a = Memory.read s.dbuf a

/-- A character that raises no error puts its index into `DBUF`: a valid one by the write, an ignored one by the
placeholder, which is its index. -/
theorem translateCharacter_storesDigit {s : State} {c : Byte} (hzero : Memory.read s.dbuf s.idx.toNat = some 0)
    (hc : s.ignr = true ∨ (indexOf c).valid = true) :
    ∃ m, StoresDigit s c m ∧ translateCharacter s c = nextCharacter { s with dbuf := m } := by
  cases hv : (indexOf c).valid with
  | true =>
    exact ⟨Memory.write s.dbuf s.idx.toNat (indexOf c).idx,
      ⟨Memory.read_write_same _ _ _, fun a ha => Memory.read_write_other _ _ _ _ ha⟩,
      translateCharacter_valid s c hv⟩
  | false =>
    have hg : s.ignr = true := hc.resolve_right (by simp [hv])
    exact ⟨s.dbuf, ⟨by rw [hzero, indexOf_idx_of_invalid c hv], fun _ _ => rfl⟩, translateCharacter_skipped s c hv hg⟩

theorem TranslatesRest.step_next {s : State} {c : Byte} {str : List Byte} (h : TranslatesRest s (c :: str)) :
    step s = .next (translateCharacter s c) := by
  obtain ⟨hphase, hp, _, hread, _⟩ := h
  rw [step_decXl hp hphase]
  exact exec_decXlat_of_read s c (hread 0 c rfl)

theorem TranslatesRest.placeholder {s : State} {c : Byte} {str : List Byte} (h : TranslatesRest s (c :: str)) :
    Memory.read s.dbuf s.idx.toNat = some 0 := by
  obtain ⟨_, _, hlen, _, hzero⟩ := h
  rw [List.length_cons] at hlen
  exact hzero _ le_rfl (by omega)

/-- The last character ends the translation. -/
theorem TranslatesRest.step_last {s : State} {c : Byte} (h : TranslatesRest s [c])
    (hc : s.ignr = true ∨ (indexOf c).valid = true) :
    ∃ m, StoresDigit s c m ∧ step s = .next { s with idx := 0, phase := .decEmit, dbuf := m } := by
  obtain ⟨m, hm, e⟩ := translateCharacter_storesDigit h.placeholder hc
  refine ⟨m, hm, ?_⟩
  rw [h.step_next, e]
  obtain ⟨_, _, hlen, _⟩ := h
  have hidx : s.idx + 1 = s.inLen :=
    BitVec.eq_of_toNat_eq ((lenWord_add_one s.idx s.inLen (Nat.le_of_eq hlen)).trans hlen)
  exact congrArg _ (nextCharacter_last { s with dbuf := m } hidx)

/-- An inner character goes on to the next. -/
theorem TranslatesRest.step_inner {s : State} {c c' : Byte} {str : List Byte} (h : TranslatesRest s (c :: c' :: str))
    (hc : s.ignr = true ∨ (indexOf c).valid = true) :
    ∃ m, StoresDigit s c m ∧ (s.idx + 1).toNat = s.idx.toNat + 1 ∧
      step s = .next { s with idx := s.idx + 1, dbuf := m } ∧
      TranslatesRest { s with idx := s.idx + 1, dbuf := m } (c' :: str) := by
  obtain ⟨m, hm, e⟩ := translateCharacter_storesDigit h.placeholder hc
  have hstep := h.step_next
  obtain ⟨hphase, hp, hlen, hread, hzero⟩ := h
  simp only [List.length_cons] at hlen
  have hidx : (s.idx + 1).toNat = s.idx.toNat + 1 := lenWord_add_one s.idx s.inLen (by omega)
  have hne : s.idx + 1 ≠ s.inLen := fun h => by
    have := congrArg BitVec.toNat h
    omega
  refine ⟨m, hm, hidx, ?_, hphase, hp, ?_, fun i d hd => ?_, fun i hi hlt => ?_⟩
  · rw [hstep, e]
    exact congrArg _ (nextCharacter_inner { s with dbuf := m } hne)
  · show (s.idx + 1).toNat + (c' :: str).length = s.inLen.toNat
    rw [List.length_cons]
    omega
  · show Memory.read s.ibuf ((s.idx + 1).toNat + i) = some d
    have hi : (s.idx + 1).toNat + i = s.idx.toNat + (i + 1) := by omega
    rw [hi]
    exact hread (i + 1) d hd
  · change (s.idx + 1).toNat ≤ i at hi
    show Memory.read m i = some 0
    rw [hm.2 i (by omega)]
    exact hzero i (by omega) hlt

/-- A translation without error ends with the digits of the string in `DBUF`. -/
theorem TranslatesRest.run {s : State} {str : List Byte} (h : TranslatesRest s str) (hne : str ≠ [])
    (hc : ∀ c ∈ str, s.ignr = true ∨ (indexOf c).valid = true) :
    ∃ m, Host.Core.run core str.length s = .next { s with idx := 0, phase := .decEmit, dbuf := m } ∧
      (∀ (i : Nat) d, (digitsOf str)[i]? = some d → Memory.read m (s.idx.toNat + i) = some d) ∧
      ∀ a, a < s.idx.toNat → Memory.read m a = Memory.read s.dbuf a := by
  induction str generalizing s with
  | nil => exact absurd rfl hne
  | cons c str ih =>
    have hfirst := hc c List.mem_cons_self
    cases str with
    | nil =>
      obtain ⟨m, hm, hstep⟩ := h.step_last hfirst
      refine ⟨m, core_run_step 0 _ _ hstep, fun i d hd => ?_, fun a ha => hm.2 a (by omega)⟩
      cases i with
      | zero =>
        obtain rfl : (indexOf c).idx = d := by simpa [digitsOf] using hd
        exact hm.1
      | succ i => simp [digitsOf] at hd
    | cons c' str =>
      obtain ⟨m, hm, hidx, hstep, hrest⟩ := h.step_inner hfirst
      obtain ⟨m', hrun, hdigits, hbelow⟩ := ih hrest (by simp) fun d hd => hc d (List.mem_cons_of_mem _ hd)
      change ∀ (i : Nat) d, (digitsOf (c' :: str))[i]? = some d →
        Memory.read m' ((s.idx + 1).toNat + i) = some d at hdigits
      change ∀ a, a < (s.idx + 1).toNat → Memory.read m' a = Memory.read m a at hbelow
      refine ⟨m', ?_, fun i d hd => ?_, fun a ha => ?_⟩
      · rw [List.length_cons, core_run_step _ _ _ hstep, hrun]
      · cases i with
        | zero =>
          obtain rfl : (indexOf c).idx = d := by simpa [digitsOf] using hd
          rw [Nat.add_zero, hbelow _ (by omega), hm.1]
        | succ i =>
          have hi : s.idx.toNat + (i + 1) = (s.idx + 1).toNat + i := by omega
          rw [hi]
          exact hdigits i d hd
      · rw [hbelow a (by omega), hm.2 a (by omega)]

/-- Strict translation ends at the first character outside the alphabet, with the error there. -/
theorem TranslatesRest.run_error {s : State} {str : List Byte} {p : Nat} (h : TranslatesRest s str)
    (hg : s.ignr = false) (hfirst : FirstInvalid str p) :
    ∃ (i : LenWord) (m : Buffer 6), i.toNat = s.idx.toNat + p ∧
      Host.Core.run core (p + 1) s = .next (raiseError .invalidCharacter i { s with idx := i, dbuf := m }) := by
  induction p generalizing s str with
  | zero =>
    obtain ⟨⟨c, hc, hv⟩, _⟩ := hfirst
    match str, hc with
    | _ :: rest, rfl =>
      refine ⟨s.idx, s.dbuf, rfl, ?_⟩
      rw [core_run_step 0 _ _ h.step_next, translateCharacter_invalid s _ hv hg]
      rfl
  | succ p ih =>
    obtain ⟨⟨c, hc, hv⟩, hbefore⟩ := hfirst
    match str, hc with
    | [_], hc => simp at hc
    | d :: e :: rest, hc =>
      obtain ⟨m, _, hidx, hstep, hrest⟩ := h.step_inner (.inr (hbefore 0 d (Nat.succ_pos p) rfl))
      obtain ⟨i, m', hi, hrun⟩ := ih hrest hg
        ⟨⟨c, hc, hv⟩, fun q b hq hb => hbefore (q + 1) b (by omega) hb⟩
      change i.toNat = (s.idx + 1).toNat + p at hi
      exact ⟨i, m', by omega, (core_run_step _ _ _ hstep).trans hrun⟩

/-! Emission. -/

/-- The steps that emit `n` digits: one a run, full or short. -/
def emitSteps (n : Nat) : Nat := (n + 2) / 3

theorem emitSteps_add_three (n : Nat) : emitSteps (n + 3) = emitSteps n + 1 := by
  unfold emitSteps
  omega

/-- A decode that emits, with the digits `ds` left from `IDX` on, and room for their bytes from `ODX` on. -/
def EmitsRest (s : State) (ds : List DigitWord) : Prop :=
  s.phase = .decEmit ∧ s.pending = [] ∧ s.idx.toNat + ds.length = s.inLen.toNat ∧
  s.odx.toNat + decodeLen ds.length < 2 ^ Config.olenW ∧
  ∀ (i : Nat) d, ds[i]? = some d → Memory.read s.dbuf (s.idx.toNat + i) = some d

theorem EmitsRest.remaining_eq {s : State} {ds : List DigitWord} (h : EmitsRest s ds) : remaining s = ds.length := by
  obtain ⟨_, _, hlen, _⟩ := h
  unfold remaining
  omega

theorem EmitsRest.step_triple {s : State} {d0 d1 d2 : DigitWord} {ds : List DigitWord}
    (h : EmitsRest s (d0 :: d1 :: d2 :: ds)) :
    step s = .next (emitTriple s (d0, d1, d2)) ∧ EmitsRest (emitTriple s (d0, d1, d2)) ds ∧
      (s.odx + 2).toNat = s.odx.toNat + 2 ∧
      emitTriple s (d0, d1, d2) =
        { s with
          idx := s.idx + 3, odx := s.odx + 2,
          obuf := Memory.writeList s.obuf s.odx.toNat [(split16 (mac3 d0 d1 d2)).1, (split16 (mac3 d0 d1 d2)).2] } := by
  have hrem := h.remaining_eq
  obtain ⟨hphase, hp, hlen, hroom, hread⟩ := h
  simp only [List.length_cons, decodeLen_add_three] at hrem hlen hroom
  have hidx1 : (s.idx + 1).toNat = s.idx.toNat + 1 := lenWord_add_one s.idx s.inLen (by omega)
  have hidx2 : (s.idx + 2).toNat = s.idx.toNat + 2 := lenWord_add_two s.idx s.inLen (by omega)
  have hidx3 : (s.idx + 3).toNat = s.idx.toNat + 3 := lenWord_add_three s.idx s.inLen (by omega)
  have hodx1 : (s.odx + 1).toNat = s.odx.toNat + 1 := outWord_add_one _ (by omega)
  have hodx2 : (s.odx + 2).toNat = s.odx.toNat + 2 := outWord_add_two _ (by omega)
  have hstep : step s = .next (emitTriple s (d0, d1, d2)) := by
    rw [step_decEmit hp hphase ((eq_emitStep_iff _ _).2 (.inr (.inr (.inr ⟨rfl, by omega⟩))))]
    exact exec_decTriple_of_read s d0 d1 d2 (hread 0 d0 rfl) (by rw [hidx1]; exact hread 1 d1 rfl)
      (by rw [hidx2]; exact hread 2 d2 rfl)
  refine ⟨hstep, ⟨hphase, hp, ?_, ?_, fun i d hd => ?_⟩, hodx2, ?_⟩
  · show (s.idx + 3).toNat + ds.length = s.inLen.toNat
    omega
  · show (s.odx + 2).toNat + decodeLen ds.length < _
    omega
  · show Memory.read s.dbuf ((s.idx + 3).toNat + i) = some d
    have hi : (s.idx + 3).toNat + i = s.idx.toNat + (i + 3) := by omega
    rw [hi]
    exact hread (i + 3) d hd
  · rw [emitTriple_frame, emitTriple_obuf, hodx1]
    rfl

theorem EmitsRest.step_pair {s : State} {d0 d1 : DigitWord} (h : EmitsRest s [d0, d1]) :
    step s = .next (emitPair s (d0, d1)) ∧ TakesAll s (emitPair s (d0, d1)) [trunc8 (mac2 d0 d1)] := by
  have hrem := h.remaining_eq
  obtain ⟨hphase, hp, hlen, _, hread⟩ := h
  simp only [List.length_cons, List.length_nil] at hrem hlen
  have hidx1 : (s.idx + 1).toNat = s.idx.toNat + 1 := lenWord_add_one s.idx s.inLen (by omega)
  have hidx2 : s.idx + 2 = s.inLen :=
    BitVec.eq_of_toNat_eq ((lenWord_add_two s.idx s.inLen (by omega)).trans (by omega))
  have hstep : step s = .next (emitPair s (d0, d1)) := by
    rw [step_decEmit hp hphase ((eq_emitStep_iff _ _).2 (.inr (.inr (.inl ⟨rfl, hrem⟩))))]
    exact exec_decPair_of_read s d0 d1 (hread 0 d0 rfl) (by rw [hidx1]; exact hread 1 d1 rfl)
  refine ⟨hstep, s.odx + 1, ?_⟩
  rw [emitPair_frame, emitPair_obuf, hidx2]
  rfl

theorem EmitsRest.step_drop {s : State} {d : DigitWord} (h : EmitsRest s [d]) :
    step s = .next (advance 1 0 s) ∧ TakesAll s (advance 1 0 s) [] := by
  have hrem := h.remaining_eq
  obtain ⟨hphase, hp, hlen, _⟩ := h
  have hidx : s.idx + 1 = s.inLen :=
    BitVec.eq_of_toNat_eq ((lenWord_add_one s.idx s.inLen (Nat.le_of_eq hlen)).trans hlen)
  refine ⟨?_, s.odx, ?_⟩
  · rw [step_decEmit hp hphase ((eq_emitStep_iff _ _).2 (.inr (.inl ⟨rfl, hrem⟩))), exec_decDrop]
  · rw [advance_idx_only, hidx]
    rfl

/-- The emitting steps write the bytes of all the digits that are left. -/
theorem EmitsRest.run {s : State} {ds : List DigitWord} (h : EmitsRest s ds) :
    ∃ t, Host.Core.run core (emitSteps ds.length) s = .next t ∧ TakesAll s t (emitBytes ds) := by
  induction ds using emitBytes.induct generalizing s with
  | case1 =>
    obtain ⟨_, _, hlen, _⟩ := h
    exact ⟨s, rfl, .nil hlen⟩
  | case2 d =>
    obtain ⟨hstep, hall⟩ := h.step_drop
    have hone : emitSteps [d].length = 0 + 1 := by simp [emitSteps]
    exact ⟨_, by rw [hone, core_run_step 0 _ _ hstep]; rfl, hall⟩
  | case3 d0 d1 =>
    obtain ⟨hstep, hall⟩ := h.step_pair
    have hone : emitSteps [d0, d1].length = 0 + 1 := by simp [emitSteps]
    exact ⟨_, by rw [hone, core_run_step 0 _ _ hstep]; rfl, hall⟩
  | case4 d0 d1 d2 ds high8 low _ ih =>
    obtain ⟨hstep, hrest, hodx, heq⟩ := h.step_triple
    obtain ⟨t, ht, hall⟩ := ih hrest
    rw [heq] at hall
    refine ⟨t, ?_, hall.append hodx⟩
    simp only [List.length_cons]
    rw [emitSteps_add_three, core_run_step _ _ _ hstep, ht]

/-- With no digit left, DEC_FIN completes. -/
theorem TakesAll.step_decFin {s t : State} {bs : List Byte} (h : TakesAll s t bs) (hphase : s.phase = .decEmit)
    (hp : s.pending = []) : step t = .next (complete t) := by
  obtain ⟨o, rfl⟩ := h
  have hfin : Instr.decFin = emitStep (s.inLen.toNat - s.inLen.toNat) := by
    rw [Nat.sub_self]
    rfl
  rw [step_decEmit (s := { s with idx := s.inLen, odx := o, obuf := _ }) hp hphase hfin, exec_decFin]

/-! The command. -/

/-- The command word of a decode with policy `ign`. -/
def decodeWord (ign : Bool) : Nat := if ign then 0x03 else 0x02

/-- The write of 0x02 or 0x03 starts the command. -/
theorem step_startDecode {s : State} {ign : Bool} (hidle : s.status.busy = false)
    (hp : s.pending = [.wr 0 (decodeWord ign)]) : step s = .next (startDecode ign { s with pending := [] }) := by
  rw [step_commandWrite s _ _ hp]
  cases ign with
  | false =>
    rw [writeCommand_of_decode (i := .decode) _ rfl, exec_decode, whenIdle_idle _ { s with pending := [] } hidle]
  | true =>
    rw [writeCommand_of_decode (i := .decodeIgn) _ rfl, exec_decodeIgn, whenIdle_idle _ { s with pending := [] } hidle]

theorem step_checkLength {s : State} (hphase : s.phase = .decChk) (hp : s.pending = []) :
    step s = .next (checkLength s) := by
  rw [step_decChk hp hphase, exec_decCheck]

/-- A length that passes the check begins the translation of the whole input. -/
theorem beginTranslate_translatesRest {s : State} {str : List Byte} (hp : s.pending = []) (h : HasInput s str)
    (n : OutWord) : TranslatesRest (beginTranslate (clearDbuf { s with outLen := n })) str := by
  obtain ⟨hlen, hread⟩ := h
  refine ⟨rfl, hp, ?_, fun i c hc => ?_, fun i _ hi => (Memory.read_zeroFill _ _ _).trans (if_pos hi)⟩
  · show 0 + str.length = s.inLen.toNat
    omega
  · show Memory.read s.ibuf (0 + i) = some c
    rw [Nat.zero_add]
    exact hread i c hc

/-- After the translation the digits of the whole input are to be emitted. -/
theorem translated_emitsRest {s : State} {str : List Byte} {m : Buffer 6} (hp : s.pending = []) (h : HasInput s str)
    (n : OutWord) (hdigits : ∀ (i : Nat) d, (digitsOf str)[i]? = some d → Memory.read m (0 + i) = some d) :
    EmitsRest { beginTranslate (clearDbuf { s with outLen := n }) with idx := 0, phase := .decEmit, dbuf := m }
      (digitsOf str) := by
  have hlen : (digitsOf str).length = s.inLen.toNat := by rw [digitsOf, List.length_map, h.1]
  refine ⟨rfl, hp, (Nat.zero_add _).trans hlen, ?_, hdigits⟩
  show 0 + decodeLen (digitsOf str).length < _
  rw [hlen, Nat.zero_add]
  exact decodeLen_room s.inLen

/-- The steps after acceptance that R86 bounds. -/
def decodeSteps (n : Nat) : Nat := 1 + n + n / 3 + 1 + 1

/-- A decode of a string that translates: check, translation, emission, completion. -/
theorem decode_run_bytes {s : State} {str : List Byte} (hphase : s.phase = .decChk) (hp : s.pending = [])
    (hstatus : s.status = .accepted) (hpos : s.errPos = 0) (h : HasInput s str) (hne : str ≠ [])
    (hok : str.length % 3 = 1 → s.ignr = true) (hall : ∀ c ∈ str, s.ignr = true ∨ (indexOf c).valid = true) :
    ∃ k t, k ≤ decodeSteps str.length ∧ Host.Core.run core k s = .next t ∧
      HasResult s t (.bytes (emitBytes (digitsOf str))) := by
  have hlen : s.inLen.toNat = str.length := h.1
  have hcheck := checkLength_valid s (by rw [hlen]; exact fun h0 => hne (List.length_eq_zero_iff.1 h0))
    (by rw [hlen]; exact hok)
  have hrest := beginTranslate_translatesRest hp h (BitVec.ofNat Config.olenW (decodeLen s.inLen.toNat))
  obtain ⟨m, hrun, hdigits, _⟩ := hrest.run hne hall
  obtain ⟨t, ht, htakes⟩ := (translated_emitsRest hp h _ hdigits).run
  refine ⟨1 + (str.length + (emitSteps (digitsOf str).length + 1)), complete t, ?_, ?_, ?_⟩
  · rw [digitsOf, List.length_map]
    unfold decodeSteps emitSteps
    omega
  · rw [Nat.add_comm 1, core_run_step _ _ _ (step_checkLength hphase hp), hcheck, run_add core _ _ _ _ hrun,
      run_add core _ _ _ _ ht]
    exact core_run_step 0 _ _ (htakes.step_decFin rfl hp)
  · obtain ⟨o, rfl⟩ := htakes
    refine ⟨rfl, hp, rfl, rfl, ?_, ?_, ?_, rfl⟩
    · show s.status.completed = _
      rw [hstatus]
      rfl
    · show s.errPos.toNat = 0
      rw [hpos]
      rfl
    · show (BitVec.ofNat Config.olenW (decodeLen s.inLen.toNat)).toNat = (emitBytes (digitsOf str)).length
      rw [decodeLen_fits, emitBytes_digitsOf_length, hlen]

/-- A strict decode with a character outside the alphabet: check, and translation up to it. -/
theorem decode_run_invalidCharacter {s : State} {str : List Byte} {p : Nat} (hphase : s.phase = .decChk)
    (hp : s.pending = []) (h : HasInput s str) (hmod : str.length % 3 = 1 → s.ignr = true) (hg : s.ignr = false)
    (hfirst : FirstInvalid str p) :
    ∃ k t, k ≤ decodeSteps str.length ∧ Host.Core.run core k s = .next t ∧ HasResult s t (.invalidCharacter p) := by
  have hlen : s.inLen.toNat = str.length := h.1
  have hlt : p < str.length := by
    obtain ⟨⟨c, hc, _⟩, _⟩ := hfirst
    exact (List.getElem?_eq_some_iff.1 hc).1
  have hcheck := checkLength_valid s (by omega) (by rw [hlen]; exact hmod)
  have hrest := beginTranslate_translatesRest hp h (BitVec.ofNat Config.olenW (decodeLen s.inLen.toNat))
  obtain ⟨i, m, hi, hrun⟩ := hrest.run_error hg hfirst
  have hsteps := core_run_step (p + 1) _ _ (step_checkLength hphase hp)
  rw [hcheck, hrun] at hsteps
  refine ⟨p + 1 + 1, _, ?_, hsteps, rfl, hp, rfl, rfl, rfl, hi.trans (Nat.zero_add p), rfl, rfl⟩
  unfold decodeSteps
  omega

/-- The steps of a decode after its acceptance, in each of its results. -/
theorem decode_run {s : State} {str : List Byte} (hphase : s.phase = .decChk) (hp : s.pending = [])
    (hstatus : s.status = .accepted) (hpos : s.errPos = 0) (h : HasInput s str) :
    ∃ k t, k ≤ decodeSteps str.length ∧ Host.Core.run core k s = .next t ∧
      HasResult s t (decodeString str s.ignr) := by
  have hlen : s.inLen.toNat = str.length := h.1
  have hone : 1 ≤ decodeSteps str.length := by
    unfold decodeSteps
    omega
  have hcheck := core_run_step 0 _ _ (step_checkLength hphase hp)
  obtain ⟨hmod, hg, e⟩ | ⟨hok, ⟨hall, e⟩ | ⟨p, hg, hfirst, e⟩⟩ := decodeString_cases str s.ignr <;> rw [e]
  · refine ⟨1, _, hone, hcheck, ?_⟩
    rw [checkLength_invalid s (by rw [hlen]; exact hmod) hg]
    exact ⟨rfl, hp, rfl, rfl, rfl, rfl, rfl, rfl⟩
  · by_cases hne : str = []
    · subst hne
      refine ⟨1, _, hone, hcheck, ?_⟩
      rw [checkLength_empty s hlen]
      refine ⟨rfl, hp, rfl, rfl, ?_, ?_, rfl, rfl⟩
      · show s.status.completed = _
        rw [hstatus]
        rfl
      · show s.errPos.toNat = 0
        rw [hpos]
        rfl
    · exact decode_run_bytes hphase hp hstatus hpos h hne hok hall
  · exact decode_run_invalidCharacter hphase hp h hok hg hfirst

/-- The command with all its steps, and as long as one likes after them. -/
theorem decode_command {s : State} {str : List Byte} {ign : Bool} (hidle : s.status.busy = false)
    (hp : s.pending = [.wr 0 (decodeWord ign)]) (h : HasInput s str) :
    ∃ t, Host.Core.run core (1 + decodeSteps str.length) s = .next t ∧ HasResult s t (decodeString str ign) := by
  obtain ⟨k, t, hk, ht, hresult⟩ :=
    decode_run (s := startDecode ign { s with pending := [] }) (str := str) rfl rfl rfl rfl h
  have hsettled := core_run_settled ht hk hresult.2.1 hresult.1
  exact ⟨t, by rw [Nat.add_comm, core_run_step _ _ _ (step_startDecode hidle hp), hsettled], hresult⟩

theorem statusWord_invalidLength : statusWord { busy := false, done := true, err := .invalidLength } = 0x06 := by
  decide

theorem statusWord_invalidCharacter :
    statusWord { busy := false, done := true, err := .invalidCharacter } = 0x0A := by
  decide

/-- Settles O51: each result of the function with the `STATUS` that reports it. -/
theorem decodeCommandComputesDecode : Obligations.DecodeCommandComputesDecode := by
  intro s str ign hidle hp hlen hread
  obtain ⟨t, ht, hresult⟩ := decode_command hidle hp ⟨hlen, hread⟩
  obtain ⟨hvalues, hbeyond⟩ := hresult.read_obuf
  obtain ⟨hphase, _, hibuf, hin, hstatus, hpos, hout, hobuf⟩ := hresult
  refine ⟨t, ht, hphase, hibuf, hin, ?_⟩
  rw [hstatus]
  cases hr : decodeString str ign with
  | bytes r =>
    rw [hr] at hpos hout hvalues hbeyond
    exact ⟨statusWord_done, BitVec.eq_of_toNat_eq hpos, hout, hvalues, hbeyond⟩
  | invalidLength =>
    rw [hr] at hpos hout hobuf
    exact ⟨statusWord_invalidLength, BitVec.eq_of_toNat_eq hpos, BitVec.eq_of_toNat_eq hout, hobuf⟩
  | invalidCharacter p =>
    rw [hr] at hpos hout hobuf
    exact ⟨statusWord_invalidCharacter, hpos, BitVec.eq_of_toNat_eq hout, hobuf⟩

/-! The result depends on the input only. -/

/-- The loaded input as a list. -/
def inputOf (s : State) : List Byte := (List.range s.inLen.toNat).map (fun i => (Memory.read s.ibuf i).getD 0)

theorem inputOf_length (s : State) : (inputOf s).length = s.inLen.toNat := by
  simp [inputOf]

/-- A state whose first `IN_LEN` elements are those of `s` has the input of `s`. -/
theorem hasInput_inputOf {s s' : State} (hload : Loaded s) (hlen : s.inLen = s'.inLen)
    (heq : ∀ i, i < s.inLen.toNat → Memory.read s.ibuf i = Memory.read s'.ibuf i) : HasInput s' (inputOf s) := by
  refine ⟨by rw [inputOf_length, hlen], fun i b hb => ?_⟩
  have hi : i < s.inLen.toNat := inputOf_length s ▸ (List.getElem?_eq_some_iff.1 hb).1
  obtain ⟨v, hv⟩ := Option.isSome_iff_exists.1 (hload i hi)
  obtain rfl : v = b := by simpa [inputOf, hi, hv] using hb
  rw [← heq i hi, hv]

/-- The result that the three command words have on the input `bs`. -/
def commandResult (v : Nat) (bs : List Byte) : DecodeResult :=
  if v = 1 then .bytes (encodeBytes bs) else decodeString bs (v == 3)

/-- Each command ends with its result. -/
theorem command_hasResult {s : State} {v : Nat} {bs : List Byte} (hv : v = 1 ∨ v = 2 ∨ v = 3)
    (hidle : s.status.busy = false) (hp : s.pending = [.wr 0 v]) (h : HasInput s bs) :
    ∃ t, Host.Core.run core (1 + decodeSteps bs.length) s = .next t ∧ HasResult s t (commandResult v bs) := by
  obtain rfl | rfl | rfl := hv
  · obtain ⟨t, ht, hresult, _⟩ := encode_command hidle hp h
    refine ⟨t, core_run_settled ht ?_ hresult.2.1 hresult.1, hresult⟩
    unfold encodeSteps decodeSteps
    omega
  · exact decode_command (ign := false) hidle hp h
  · exact decode_command (ign := true) hidle hp h

/-- Settles O52: both runs end with the result of the same function on the same list. -/
theorem resultDependsOnlyOnTheInput : Obligations.ResultDependsOnlyOnTheInput := by
  intro s s' v hv hidle hidle' hp hp' hlen hload heq
  obtain ⟨t, ht, h⟩ := command_hasResult hv hidle hp (hasInput_inputOf hload rfl fun _ _ => rfl)
  obtain ⟨t', ht', h'⟩ := command_hasResult hv hidle' hp' (hasInput_inputOf hload hlen heq)
  rw [inputOf_length] at ht ht'
  obtain ⟨hvalues, _⟩ := h.read_obuf
  obtain ⟨hvalues', _⟩ := h'.read_obuf
  obtain ⟨_, _, _, _, hstatus, hpos, hout, _⟩ := h
  obtain ⟨_, _, _, _, hstatus', hpos', hout', _⟩ := h'
  refine ⟨t, t', ht, ht', hstatus.trans hstatus'.symm, by rw [hstatus], BitVec.eq_of_toNat_eq (hpos.trans hpos'.symm),
    BitVec.eq_of_toNat_eq (hout.trans hout'.symm), fun i hi => ?_⟩
  have hget := List.getElem?_eq_getElem (hout ▸ hi)
  rw [hvalues i _ hget, hvalues' i _ hget]

end Sys2Proof.Machine
end
